-- ==== Sys2Proof/Word.lean ====
section
/-!
DEFINITION. Sys2Proof/Word.lean: the widths of the block's data (spec/00_scope.md R8, R9).
-/

namespace Sys2Proof

/-- A byte: 8 bits (R9). -/
abbrev Byte := BitVec 8

/-- An operand slot of the command word, or the result register: 32 bits (R8). Read as a signed number with `BitVec.toInt`
(`sext_32`, R10). -/
abbrev Word := BitVec 32

/-- A 7-bit I2C address (R24). -/
abbrev I2cAddr := BitVec 7

/-- A raw pulse width in whole microseconds: a number in [0, 25000], 0 standing for a timeout (R28, R173). -/
abbrev PulseWidth := Fin 25001

end Sys2Proof
end

