-- ==== Sys2Proof/Config.lean ====
section
/-!
DEFINITION. Sys2Proof/Config.lean: the parameters the spec leaves open (spec/00_scope.md R7) and the model's free values.
Nothing in this file gives an open parameter or a free value a value that a proof could see: the `opaque` constants have no body.
-/

namespace Sys2Proof

/-- The open parameters of R7, under the spec's names. The block never writes them (they are configuration, R131); they are
carried in `State.params` so that a statement about every state is a statement about every choice of them (entry 3). -/
structure Params where
  /-- `N_PINS`: how many pin identifiers the platform maps; the valid pins are 0 to `N_PINS`-1. -/
  nPins : Nat
  /-- `REG_MODE`: number of the PWM chip's mode register. -/
  regMode : Byte
  /-- `REG_PRESCALE`: number of the prescaler register. -/
  regPrescale : Byte
  /-- `REG_CH_BASE`: channel-register address of channel 0. -/
  regChBase : Byte
  /-- `CH_STRIDE`: register-number distance between consecutive channels. -/
  chStride : Int
  /-- `MODE_RESET`: value written to reset the mode register. -/
  modeReset : Byte
  /-- `MODE_SLEEP_BIT`: bit set to put the chip to sleep. -/
  modeSleepBit : Byte
  /-- `MODE_KEEP_MASK`: bits of the old mode kept when going to sleep. -/
  modeKeepMask : Byte
  /-- `MODE_RUN_BITS`: bits set by the final write that restarts the chip with auto-increment. -/
  modeRunBits : Byte
  /-- `CS_SPEED_MAX`: magnitude of the continuous-servo speed range. -/
  csSpeedMax : Nat
  /-- `CS_NEUTRAL_US`: the continuous profile's stopped pulse width. -/
  csNeutralUs : Rat
  /-- `CS_DEFLECT_US`: the continuous profile's fixed deflection. -/
  csDeflectUs : Rat
  /-- `CS_MIN_US`: least pulse width of the continuous profile. -/
  csMinUs : Rat
  /-- `CS_MAX_US`: greatest pulse width of the continuous profile. -/
  csMaxUs : Rat
  /-- `ANG_PW0_US`: angle profile, pulse width at normalised angle 0. -/
  angPw0Us : Rat
  /-- `ANG_PW270_US`: angle profile, pulse width at normalised angle 270. -/
  angPw270Us : Rat
  /-- `ANG_MIN_US`: least pulse width of the angle profile. -/
  angMinUs : Rat
  /-- `ANG_MAX_US`: greatest pulse width of the angle profile. -/
  angMaxUs : Rat
  /-- `WIDE_PW0_US`: wide profile, pulse width at normalised angle 0. -/
  widePw0Us : Rat
  /-- `WIDE_PW360_US`: wide profile, pulse width at the excluded end 360. -/
  widePw360Us : Rat
  /-- `WIDE_MIN_US`: least pulse width of the wide profile. -/
  wideMinUs : Rat
  /-- `WIDE_MAX_US`: greatest pulse width of the wide profile. -/
  wideMaxUs : Rat
  /-- `MP3_CMD_PLAY`: command byte of play. -/
  mp3CmdPlay : Byte
  /-- `MP3_CMD_STOP`: command byte of stop. -/
  mp3CmdStop : Byte
  /-- `MP3_CMD_NEXT`: command byte of next. -/
  mp3CmdNext : Byte
  /-- `MP3_CMD_PREV`: command byte of prev. -/
  mp3CmdPrev : Byte
  /-- `MP3_CMD_VOL`: command byte of setVolume. -/
  mp3CmdVol : Byte
  /-- `MP3_CMD_PLAYNUM`: command byte of playFileByNumber. -/
  mp3CmdPlaynum : Byte
  /-- `MP3_CMD_PLAYNAME`: command byte of playFileByName. -/
  mp3CmdPlayname : Byte
  /-- `UART_FORMAT`: data bits, parity and stop bits of the UART, as an uninterpreted number: no rule computes with it (U8,
  entry 11). -/
  uartFormat : Nat
deriving DecidableEq, Repr, Inhabited

/-- The constraints R7 puts on the open parameters. -/
abbrev Params.Valid (p : Params) : Prop :=
  1 ≤ p.nPins ∧ 0 < p.csSpeedMax ∧ p.csMinUs ≤ p.csMaxUs ∧ p.angMinUs ≤ p.angMaxUs ∧ p.wideMinUs ≤ p.wideMaxUs

/-- A choice of parameters made to meet the constraints of R7; it changes nothing in a choice that already meets them
(`Params.normalise_of_valid`), so it shuts out no choice R7 allows. -/
def Params.normalise (p : Params) : Params :=
  { p with
    nPins := max 1 p.nPins
    csSpeedMax := max 1 p.csSpeedMax
    csMaxUs := max p.csMinUs p.csMaxUs
    angMaxUs := max p.angMinUs p.angMaxUs
    wideMaxUs := max p.wideMinUs p.wideMaxUs }

/-- FREE VALUE (entry 3): some choice of the open parameters. No body: nothing can be proved of its fields. -/
opaque Config.anyParams : Params

/-- The open parameters of the machine that starts at reset: any choice that meets R7's constraints. -/
def Config.params : Params := Config.anyParams.normalise

/-- FREE VALUE (entry 4): the byte the PWM chip answers at the n-th draw that no listed answer serves (R75, U1). -/
opaque Config.readAnswer : Nat → Byte

/-- FREE VALUE (entry 4): the width the sensor answers at the n-th draw that no listed answer serves (R173, U2): any number in
[0, 25000]. -/
opaque Config.pulseAnswer : Nat → PulseWidth

/-- FREE VALUE (entry 5): what `RES` holds after reset, which R32 leaves unspecified (U3: "any value (drawn once at reset)"). -/
opaque Config.resAtReset : Word

end Sys2Proof
end

