-- ==== Sys2Proof/Machine/Constants.lean ====
section
/-!
DEFINITION. Sys2Proof/Machine/Constants.lean: the constants the source document fixes (spec/00_scope.md R6), as literals.
-/

namespace Sys2Proof.Machine

/-- `N_CHANNELS`: PWM channels, numbered 0 to 15. -/
abbrev nChannels : Nat := 16
/-- `PWM_ADDR_DEFAULT`: default 7-bit I2C address of the PWM chip. -/
abbrev pwmAddrDefault : I2cAddr := 0x40
/-- `LEVELS_DEFAULT` -/
abbrev levelsDefault : Nat := 4096
/-- `PERIOD_DEFAULT` (R22, C1) -/
abbrev periodDefault : Nat := 20000
/-- `PRESCALE_FACTOR` -/
abbrev prescaleFactor : Int := 25
/-- `OSC_WAIT_US` -/
abbrev oscWaitUs : Nat := 5000
/-- `USR_LOW_US` -/
abbrev usrLowUs : Nat := 2
/-- `USR_HIGH_US` -/
abbrev usrHighUs : Nat := 10
/-- `USR_LIMIT_US` -/
abbrev usrLimitUs : Nat := 25000
/-- `USR_RETRY_MS`, in the microseconds of `DelayUs` (R170). -/
abbrev usrRetryUs : Nat := 10000
/-- `MP3_START` -/
abbrev mp3Start : Byte := 0x7E
/-- `MP3_END` -/
abbrev mp3End : Byte := 0xEF
/-- `MP3_MAX_PAYLOAD` -/
abbrev mp3MaxPayload : Nat := 250
/-- `MP3_BAUD` -/
abbrev mp3Baud : Nat := 9600
/-- `MP3_VOL_MAX` (`MP3_VOL_MIN` is 0) -/
abbrev mp3VolMax : Int := 31
/-- `MP3_FILE_MIN` -/
abbrev mp3FileMin : Int := 1
/-- `MP3_FILE_MAX` -/
abbrev mp3FileMax : Int := 255
/-- `SERP_DIM` -/
abbrev serpDim : Nat := 8
/-- `ANG_OFFSET` -/
abbrev angOffset : Int := 45
/-- `ANG_SPAN` -/
abbrev angSpan : Int := 270
/-- `ANG_SNAP` -/
abbrev angSnap : Int := 315

end Sys2Proof.Machine
end

