-- ==== Sys2Proof/Syntax.lean ====
section
/-!
DEFINITION. Sys2Proof/Syntax.lean: the 24 commands of the block (spec/30_encoding.md R73), one constructor for each row of
spec/opcode_table.json, with the operand slots its format reads (R71, R83) and, for the payload formats, the payload (R70).
-/

namespace Sys2Proof

/-- A command. Operands are the raw 32-bit slots in slot order; each meaning reads them as signed (R70, R72). The fields a
format ignores (R71) are no part of the command. -/
inductive Instr where
  /-- `PWM_CFG addr, levels, period` (R100) -/
  | pwmCfg (addr levels period : Word)
  /-- `PWM_INIT` (R101) -/
  | pwmInit
  /-- `PWM_SETCH channel, onTick, offTick` (R104) -/
  | pwmSetch (channel onTick offTick : Word)
  /-- `MOTOR fwdChannel, revChannel, speed` (R120) -/
  | motor (fwdChannel revChannel speed : Word)
  /-- `SERVO_PW channel, pulseWidthUs` (R124) -/
  | servoPw (channel pulseWidthUs : Word)
  /-- `SERVO_CS channel, speed` (R126) -/
  | servoCs (channel speed : Word)
  /-- `SERVO_ANG channel, degrees` (R128) -/
  | servoAng (channel degrees : Word)
  /-- `SERVO_WIDE channel, degrees` (R130) -/
  | servoWide (channel degrees : Word)
  /-- `PIX_INIT rows, columns, pin` (R150) -/
  | pixInit (rows columns pin : Word)
  /-- `PIX_SET y, x, r, g, b` (R152) -/
  | pixSet (y x r g b : Word)
  /-- `PIX_FILL r, g, b` (R155) -/
  | pixFill (r g b : Word)
  /-- `PIX_SETS y, x, r, g, b` (R157) -/
  | pixSets (y x r g b : Word)
  /-- `PIX_REFRESH` (R160) -/
  | pixRefresh
  /-- `USR_MEASURE pin, pullMode, multiplier, divisor` (R170) -/
  | usrMeasure (pin pullMode multiplier divisor : Word)
  /-- `MP3_INIT txPin, rxPin` (R190) -/
  | mp3Init (txPin rxPin : Word)
  /-- `MP3_SEND command ; payload` (R192) -/
  | mp3Send (command : Word) (payload : List Byte)
  /-- `MP3_SENDSTR command ; text` (R195) -/
  | mp3Sendstr (command : Word) (text : List Byte)
  /-- `MP3_PLAY` (R197) -/
  | mp3Play
  /-- `MP3_STOP` (R198) -/
  | mp3Stop
  /-- `MP3_NEXT` (R199) -/
  | mp3Next
  /-- `MP3_PREV` (R200) -/
  | mp3Prev
  /-- `MP3_VOL volume` (R201) -/
  | mp3Vol (volume : Word)
  /-- `MP3_PLAYNUM number` (R202) -/
  | mp3Playnum (number : Word)
  /-- `MP3_PLAYNAME ; name` (R203) -/
  | mp3Playname (name : List Byte)
deriving DecidableEq, Repr

end Sys2Proof
end

