-- ==== Sys2Proof/Machine/State.lean ====
section
/-!
DEFINITION. Sys2Proof/Machine/State.lean: the state of the block (spec/10_state.md R20 to R33), the events of its output trace
(spec/00_scope.md R12), the two kinds of stop, and the state after reset (spec/70_reset_and_hazards.md R250).
-/

namespace Sys2Proof.Machine

/-- The pull modes of an ultrasonic pin: 0 none, 1 pull-down, 2 pull-up (R170, D22). -/
inductive PullMode where
  | none
  | down
  | up
deriving DecidableEq, Repr

/-- `USR.PHASE`, the position in the ranging state machine (R30, R171). -/
inductive Phase where
  | idle
  | triggering
  | listening
  | success
  | timeout
deriving DecidableEq, Repr

/-- The events of R12: all that the block does to the outside. The two reads carry the answer they got (entry 6). -/
inductive Event where
  /-- `I2cWrite(a, bytes)` -/
  | i2cWrite (addr : I2cAddr) (bytes : List Byte)
  /-- `v <- I2cReadReg(a, r)` -/
  | i2cReadReg (addr : I2cAddr) (reg : Byte) (answer : Byte)
  /-- `DelayUs(n)` -/
  | delayUs (us : Nat)
  /-- `GpioPull(p, m)` -/
  | gpioPull (pin : Nat) (mode : PullMode)
  /-- `GpioWrite(p, l)`: `true` is level 1, `false` level 0. -/
  | gpioWrite (pin : Nat) (level : Bool)
  /-- `w <- PulseIn(p, limit)` -/
  | pulseIn (pin : Nat) (limitUs : Nat) (width : PulseWidth)
  /-- `LedSend(p, bytes)` -/
  | ledSend (pin : Nat) (bytes : List Byte)
  /-- `UartCfg(tx, rx, baud)` -/
  | uartCfg (tx rx : Nat) (baud : Nat)
  /-- `UartTx(bytes)` -/
  | uartTx (bytes : List Byte)
deriving DecidableEq, Repr

/-- The framebuffer space FB (R50): the bytes that are not 0, by rising offset (entry 7). -/
abbrev Memory := List Host.Cell

/-- The PWM unit (R22 to R25). -/
structure Pwm where
  /-- `PWM.ADDR` (R24) -/
  addr : I2cAddr
  /-- `PWM.LEVELS` (R23) -/
  levels : Nat
  /-- `PWM.PERIOD` (R22) -/
  period : Nat
  /-- `PWM.INIT` (R25) -/
  init : Bool
deriving DecidableEq, Repr

/-- The pixel unit (R26, R27). -/
structure Pix where
  /-- `PIX.ROWS` -/
  rows : Nat
  /-- `PIX.COLS` -/
  cols : Nat
  /-- `PIX.PIN` -/
  pin : Nat
  /-- `PIX.INIT` -/
  init : Bool
  /-- `PIX.BUF` (R27); its length is `rows * cols * 3` -/
  buf : Memory
deriving DecidableEq, Repr

/-- The ultrasonic unit (R28, R29, R30). The per-pin tables list the pins whose entry is not the reset value 0, by rising pin
(entry 9). -/
structure Usr where
  /-- `USR.HIST` (R28) -/
  hist : List (Nat × PulseWidth)
  /-- `USR.FBUSED` (R30) -/
  fbUsed : List (Nat × Bool)
  /-- `USR.LASTPW` (R29) -/
  lastPw : PulseWidth
  /-- `USR.PHASE` (R30, R171) -/
  phase : Phase
deriving DecidableEq, Repr

/-- The MP3 unit (R31). -/
structure Mp3 where
  /-- `MP3.INIT` -/
  init : Bool
  /-- `MP3.TX` -/
  tx : Nat
  /-- `MP3.RX` -/
  rx : Nat
deriving DecidableEq, Repr

/-- The environment's answers (R12: the devices answer when asked), the model's own fields (entry 4). Answers listed here are
used first, in order; where none is listed the answer is a free value indexed by `drawn`. -/
structure Env where
  /-- Answers to coming register reads (U1). -/
  reads : List Byte
  /-- Answers to coming `PulseIn`s (U2). -/
  pulses : List PulseWidth
  /-- Index of the next free answer. -/
  drawn : Nat
deriving DecidableEq, Repr

/-- The state: what R20 gives the block, the output trace, and the model's own fields `params`, `port` and `env`. -/
structure State where
  /-- PWM unit -/
  pwm : Pwm
  /-- pixel unit -/
  pix : Pix
  /-- ultrasonic unit -/
  usr : Usr
  /-- MP3 unit -/
  mp3 : Mp3
  /-- `RES` (R32) -/
  res : Word
  /-- the output trace, oldest event first (R12, R20) -/
  trace : List Event
  /-- the open parameters (R7); never written (entry 3) -/
  params : Params
  /-- the bytes presented at the command port and not yet consumed (R70, entry 1) -/
  port : List Byte
  /-- the environment's answers (entry 4) -/
  env : Env
deriving DecidableEq, Repr

/-- Why a step can stop with a fault: it cannot. The block raises no exception, and a step "never returns a fault for any command on
any state" (R220), so there is no constructor. -/
inductive Fault where
deriving DecidableEq, Repr

/-- Why a step can be refused. -/
inductive Refusal where
  /-- An instruction without a meaning, raised by `exec`'s arm for it. Safe. No arm uses it: every row of the table has a meaning. -/
  | notModelled (mnemonic : String)
deriving DecidableEq, Repr

/-- The state after reset (R250): every field at the value of that table, the trace empty (R252). `RES` is unspecified there and
is a free value here (entry 5); the model's own fields are as entries 1, 3 and 4 say. -/
def State.reset : State :=
  { pwm := { addr := pwmAddrDefault, levels := levelsDefault, period := periodDefault, init := false }
    pix := { rows := 0, cols := 0, pin := 0, init := false, buf := [] }
    usr := { hist := [], fbUsed := [], lastPw := 0, phase := .idle }
    mp3 := { init := false, tx := 0, rx := 0 }
    res := Config.resAtReset
    trace := []
    params := Config.params
    port := []
    env := { reads := [], pulses := [], drawn := 0 } }

end Sys2Proof.Machine
end

