-- ==== Sys2Proof/Machine/Memory.lean ====
section
/-!
DEFINITION. Sys2Proof/Machine/Memory.lean: sparse tables in one canonical form, used for the framebuffer space FB (spec/20_memory.md
R50, R51) and for the per-pin tables of the ultrasonic unit (spec/10_state.md R28, R30).
A key that is not listed reads as the table's default, which the spec gives: 0 (entries 7 and 9).
-/

namespace Sys2Proof.Machine

/-- The entry at key `k`, the default `d` where none is listed. -/
def tableGet {α : Type} (d : α) : List (Nat × α) → Nat → α
  | [], _ => d
  | c :: t, k => if c.1 = k then c.2 else tableGet d t k

/-- Puts `v` at key `k`, keeping the keys rising and listing no default. -/
def tableSet {α : Type} [DecidableEq α] (d : α) : List (Nat × α) → Nat → α → List (Nat × α)
  | [], k, v => if v = d then [] else [(k, v)]
  | c :: t, k, v =>
    if k < c.1 then (if v = d then c :: t else (k, v) :: c :: t)
    else if k = c.1 then (if v = d then t else (k, v) :: t)
    else c :: tableSet d t k v

/-- The canonical form: keys strictly rising, no entry equal to the default. -/
abbrev tableWf {α : Type} (d : α) (t : List (Nat × α)) : Prop :=
  t.Pairwise (fun a b => a.1 < b.1) ∧ ∀ c ∈ t, c.2 ≠ d

/-- What an unlisted framebuffer offset reads as: `PIX_INIT` creates the buffer zeroed (R27, R150). -/
abbrev memoryDefault : Byte := 0

/-- One byte of the framebuffer. -/
def Memory.read (m : Memory) (a : Nat) : Byte := tableGet memoryDefault m a

/-- Stores one byte. -/
def Memory.write (m : Memory) (a : Nat) (v : Byte) : Memory := tableSet memoryDefault m a v

/-- The canonical form of the framebuffer. -/
abbrev Memory.wf (m : Memory) : Prop := tableWf memoryDefault m

/-- Stores consecutive bytes, lowest offset first (R11). -/
def Memory.writeBytes (m : Memory) : Nat → List Byte → Memory
  | _, [] => m
  | a, b :: bs => Memory.writeBytes (m.write a b) (a + 1) bs

/-- `n` consecutive bytes, lowest offset first (R11). -/
def Memory.readBytes (m : Memory) (a n : Nat) : List Byte := (List.range n).map fun k => m.read (a + k)

end Sys2Proof.Machine
end

