-- ==== Sys2Proof/Machine/Flags.lean ====
section
/-!
DEFINITION. Sys2Proof/Machine/Flags.lean: the status flags (spec/10_state.md R30), each with the one way it is written. The block has
no condition codes. No flag but `USR.FBUSED[p]` is ever cleared.
-/

namespace Sys2Proof.Machine

/-- `PWM.INIT <- 1` (R102). -/
def setPwmInit (s : State) : State := { s with pwm := { s.pwm with init := true } }

/-- `PIX.INIT <- 1` (R150). -/
def setPixInit (s : State) : State := { s with pix := { s.pix with init := true } }

/-- `MP3.INIT <- 1` (R190). -/
def setMp3Init (s : State) : State := { s with mp3 := { s.mp3 with init := true } }

/-- `USR.FBUSED[p]` (R30). -/
def fbUsedAt (s : State) (p : Nat) : Bool := tableGet false s.usr.fbUsed p

/-- `USR.FBUSED[p] <- b` (R170). -/
def setFbUsed (p : Nat) (b : Bool) (s : State) : State :=
  { s with usr := { s.usr with fbUsed := tableSet false s.usr.fbUsed p b } }

/-- `USR.PHASE <- ph` (R171). -/
def setPhase (ph : Phase) (s : State) : State := { s with usr := { s.usr with phase := ph } }

end Sys2Proof.Machine
end

