-- ==== Sys2Proof/Machine/Operands.lean ====
section
/-!
DEFINITION. Sys2Proof/Machine/Operands.lean: the arithmetic primitives (spec/00_scope.md R10) and the operand forms: clamp, select
and truncate (spec/30_encoding.md R72).
-/

namespace Sys2Proof.Machine

/-- `clamp(v, lo, hi)` on the integers (R10). -/
def clamp (v lo hi : Int) : Int := if v < lo then lo else if hi < v then hi else v

/-- `clamp(v, lo, hi)` on the rationals (R10). -/
def clampRat (v lo hi : Rat) : Rat := if v < lo then lo else if hi < v then hi else v

/-- `rhu(q) = floor(q + 1/2)`, round half up (R10, D13). -/
def rhu (q : Rat) : Int := (q + 1 / 2).floor

/-- `emod(a, m) = a - m*floor(a/m)`, the Euclidean remainder (R10, D16). -/
def emod (a m : Int) : Int := a % m

/-- `lo8(v)`: the value stored in a byte keeps its low bits (R10, R72). -/
def lo8 (v : Int) : Byte := BitVec.ofInt 8 v

/-- `lo16(v)`: the value stored in a 16-bit wire field keeps its low bits (R10, R72). -/
def lo16 (v : Int) : BitVec 16 := BitVec.ofInt 16 v

/-- `lo16(v)[7:0], lo16(v)[15:8]`: a tick on the wire, low byte first (R54, R76). -/
def tickBytes (v : Int) : List Byte := [(lo16 v).extractLsb' 0 8, (lo16 v).extractLsb' 8 8]

/-- A channel selector: a channel in [0, 15], or nothing (R72). -/
def channelOf (x : Int) : Option (Fin nChannels) :=
  if h : 0 ≤ x ∧ x ≤ 15 then some ⟨x.toNat, by simp only [nChannels]; omega⟩ else none

/-- A pin selector: a pin in [0, N_PINS-1], or nothing (R72, D21). -/
def pinOf (p : Params) (x : Int) : Option Nat :=
  if 0 ≤ x ∧ x < p.nPins then some x.toNat else none

/-- A pull-mode selector: 0, 1 or 2, or nothing (R72, D22). -/
def pullModeOf (x : Int) : Option PullMode :=
  if x = 0 then some .none else if x = 1 then some .down else if x = 2 then some .up else none

/-- A colour operand, clamped into [0, 255] (R152). -/
def colourByte (v : Int) : Byte := lo8 (clamp v 0 255)

end Sys2Proof.Machine
end

