-- ==== Sys2Proof/Machine/Ops.lean ====
section
/-!
DEFINITION. Sys2Proof/Machine/Ops.lean: the named operations the meanings share: events and draws (spec/00_scope.md R12), the wire
formats (spec/30_encoding.md R74 to R79), the framebuffer (spec/20_memory.md R50), the initialisation sequence and channel writes
(spec/40_pwm.md R102, R104), the tick conversion (spec/41_motor_servo.md R123), one pixel (spec/42_pixel.md R152), one ranging
attempt (spec/43_ultrasonic.md R172) and one MP3 frame (spec/44_mp3.md R191).

TAKING AN EXCEPTION AND RETURNING FROM ONE: the block has neither (R220, R225, R226), so there is no such operation here.
-/

namespace Sys2Proof.Machine

/-- What an instruction answers. -/
abbrev Result := Host.Outcome State Fault Refusal

/-! ## Events and draws -/

/-- `emit E` (R12). -/
def emit (e : Event) (s : State) : State := { s with trace := s.trace ++ [e] }

/-- The answer the next register read gets (R75, U1): the next listed one, else a free value (entry 4). -/
def readAnswer (s : State) : Byte := s.env.reads.head?.getD (Config.readAnswer s.env.drawn)

/-- The width the next `PulseIn` gets (R173, U2): the next listed one, else a free value (entry 4). -/
def pulseAnswer (s : State) : PulseWidth := s.env.pulses.head?.getD (Config.pulseAnswer s.env.drawn)

/-- The environment after a register read. -/
def Env.afterRead (e : Env) : Env :=
  match e.reads with
  | [] => { e with drawn := e.drawn + 1 }
  | _ :: rest => { e with reads := rest }

/-- The environment after a `PulseIn`. -/
def Env.afterPulse (e : Env) : Env :=
  match e.pulses with
  | [] => { e with drawn := e.drawn + 1 }
  | _ :: rest => { e with pulses := rest }

/-! ## The PWM chip over I2C -/

/-- `RegWrite(r, v)` (R74). -/
def regWrite (r v : Byte) (s : State) : State := emit (.i2cWrite s.pwm.addr [r, v]) s

/-- `v <- RegRead(r)` (R75): the state after the read; the value read is `readAnswer s`. -/
def regRead (r : Byte) (s : State) : State :=
  { emit (.i2cReadReg s.pwm.addr r (readAnswer s)) s with env := s.env.afterRead }

/-- `lo8(REG_CH_BASE + CH_STRIDE*c)`: the channel-register address of channel `c` (R76, D11). -/
def channelReg (p : Params) (c : Fin nChannels) : Byte := lo8 (p.regChBase.toNat + p.chStride * (c.val : Int))

/-- The 5-byte record of a channel write (R76). -/
def channelRecord (p : Params) (c : Fin nChannels) (on off : Int) : List Byte :=
  channelReg p c :: (tickBytes on ++ tickBytes off)

/-- `ChanWrite(c, on, off)` (R76). -/
def chanWrite (c : Fin nChannels) (on off : Int) (s : State) : State :=
  emit (.i2cWrite s.pwm.addr (channelRecord s.params c on off)) s

/-- `Prescale(period, levels)` (R77). -/
def prescale (period levels : Nat) : Byte := lo8 (clamp (prescaleFactor * period / levels - 1) 0 255)

/-- `InitSeq()` (R102): the steps are numbered as there. -/
def initSeq (s : State) : State :=
  let p := s.params
  let s1 := regWrite p.regMode p.modeReset s                                       -- 1
  let ps := prescale s.pwm.period s.pwm.levels                                     -- 2
  let m := readAnswer s1                                                           -- 3
  let s3 := regRead p.regMode s1
  let s4 := regWrite p.regMode ((m &&& p.modeKeepMask) ||| p.modeSleepBit) s3      -- 4
  let s5 := regWrite p.regPrescale ps s4                                           -- 5
  let s6 := regWrite p.regMode m s5                                                -- 6
  let s7 := emit (.delayUs oscWaitUs) s6                                           -- 7
  let s8 := regWrite p.regMode (m ||| p.modeRunBits) s7                            -- 8
  setPwmInit s8

/-- The lazy initialisation of R104: the initialisation sequence where the driver has not run it. -/
def ensurePwmInit (s : State) : State := if s.pwm.init then s else initSeq s

/-- `SetChannel(c, on, off)` (R104): the channel test precedes the lazy initialisation (R224). -/
def setChannel (c on off : Int) (s : State) : State :=
  match channelOf c with
  | none => s
  | some ch => chanWrite ch on off (ensurePwmInit s)

/-! ## Servo conversion -/

/-- `TicksOfPw(q)` (R123): one rounding, then the clamp into [1, L-1]. -/
def ticksOfPw (q : Rat) (levels period : Nat) : Int := clamp (rhu (q * levels / period)) 1 ((levels : Int) - 1)

/-- `ServoPw(c, q)` (R124). -/
def servoPulse (c : Int) (q : Rat) (s : State) : State :=
  setChannel c 0 (ticksOfPw q s.pwm.levels s.pwm.period) s

/-- The straight line from `q0` at 0 to `q1` at `span`, at `n`, exact (R126, R128, R130). -/
def interpolate (q0 q1 : Rat) (n span : Int) : Rat := q0 + n * (q1 - q0) / span

/-- `AngNorm(d)` (R127, D16). -/
def angNorm (d : Int) : Int :=
  let n := emod (d + angOffset) 360
  if n ≤ angSpan then n else if n < angSnap then angSpan else 0

/-! ## The framebuffer -/

/-- How many bytes `PIX.BUF` has (R27). -/
def fbSize (s : State) : Nat := s.pix.rows * s.pix.cols * 3

/-- `MemWrite(addr, n, v)` of R11 on the space FB (R50). No rule makes an access that is not wholly inside the buffer and none needs a
fault for one (R56); in a state outside the invariant, where the access would be one, it is a silent no-op (R220, entry 8). -/
def memWrite (o : Int) (bytes : List Byte) (s : State) : State :=
  if 0 ≤ o ∧ o + bytes.length ≤ fbSize s then { s with pix := { s.pix with buf := s.pix.buf.writeBytes o.toNat bytes } } else s

/-- `PIX.BUF` whole, offset 0 first: the `MemRead` of a refresh (R54, R160). -/
def fbBytes (s : State) : List Byte := s.pix.buf.readBytes 0 (fbSize s)

/-- `emit LedSend(PIX.PIN, PIX.BUF)` (R160). -/
def ledRefresh (s : State) : State := emit (.ledSend s.pix.pin (fbBytes s)) s

/-- The byte offset of the pixel at coordinates (y, x), clamped into the matrix (R51, R152). -/
def pixelOffset (s : State) (y x : Int) : Int :=
  (clamp y 0 ((s.pix.rows : Int) - 1) * s.pix.cols + clamp x 0 ((s.pix.cols : Int) - 1)) * 3

/-- The three bytes of a pixel: green, red, blue, each clamped into [0, 255] (R51, R152). -/
def pixelBytes (r g b : Int) : List Byte := [colourByte g, colourByte r, colourByte b]

/-- `SetPixel(y, x, r, g, b)` (R152). -/
def setPixel (y x r g b : Int) (s : State) : State := memWrite (pixelOffset s y x) (pixelBytes r g b) s

/-! ## Ranging -/

/-- `RES <- v` (R11, R32). -/
def setRes (v : Int) (s : State) : State := { s with res := BitVec.ofInt 32 v }

/-- `USR.HIST[p]` (R28). -/
def histAt (s : State) (p : Nat) : PulseWidth := tableGet 0 s.usr.hist p

/-- `PulseIn(p, limit)` (R173): the state after it; the width measured is `pulseAnswer s`. -/
def pulseIn (p : Nat) (s : State) : State :=
  { emit (.pulseIn p usrLimitUs (pulseAnswer s)) s with env := s.env.afterPulse }

/-- The trigger of an attempt: steps 1 and 2 of R172, after which the block listens (R171). -/
def trigger (p : Nat) (m : PullMode) (s : State) : State :=
  let s1 := emit (.gpioPull p m) (setPhase .triggering s)
  let s2 := emit (.delayUs usrLowUs) (emit (.gpioWrite p false) s1)
  let s3 := emit (.delayUs usrHighUs) (emit (.gpioWrite p true) s2)
  setPhase .listening (emit (.gpioWrite p false) s3)

/-- `Attempt(p, mode)` (R172): the width it returns and the state after it; Success or Timeout as R171 says. -/
def attempt (p : Nat) (m : PullMode) (s : State) : PulseWidth × State :=
  let s1 := trigger p m s
  let w := pulseAnswer s1
  (w, setPhase (if w = 0 then .timeout else .success) (pulseIn p s1))

/-! ## MP3 frames -/

/-- The checksum of R79: the sum of start byte, length, command and payload, modulo 256. -/
def frameChecksum (c : Byte) (p : List Byte) : Byte :=
  BitVec.ofNat 8 (mp3Start.toNat + (p.length + 3) + c.toNat + (p.map BitVec.toNat).sum)

/-- `Frame(c, p)` (R79). -/
def frame (c : Byte) (p : List Byte) : List Byte :=
  [mp3Start, BitVec.ofNat 8 (p.length + 3), c] ++ p ++ [frameChecksum c p, mp3End]

/-- `SendFrame(c, p)` (R191). -/
def sendFrame (c : Int) (p : List Byte) (s : State) : State :=
  if s.mp3.init = false then s
  else if mp3MaxPayload < p.length then s
  else emit (.uartTx (frame (lo8 c) p)) s

end Sys2Proof.Machine
end

