-- ==== Sys2Proof/Machine/MotorServo.lean ====
section
/-!
DEFINITION. Sys2Proof/Machine/MotorServo.lean: the motor and servo commands (spec/41_motor_servo.md).
-/

namespace Sys2Proof.Machine

/-- The speed of `MOTOR` clamped into [-(L-1), L-1] (R120). -/
def motorSpeed (speed : Int) (levels : Nat) : Int := clamp speed (-((levels : Int) - 1)) ((levels : Int) - 1)

/-- `MOTOR fwdChannel, revChannel, speed` (R120): the undriven channel first. -/
def execMotor (fwdChannel revChannel speed : Word) (s : State) : Result :=
  let f := fwdChannel.toInt
  let r := revChannel.toInt
  let v := motorSpeed speed.toInt s.pwm.levels
  .next (if 0 ≤ v then setChannel f 0 v (setChannel r 0 0 s) else setChannel r 0 (-v) (setChannel f 0 0 s))

/-- `SERVO_PW channel, pulseWidthUs` (R124). -/
def execServoPw (channel pulseWidthUs : Word) (s : State) : Result :=
  .next (servoPulse channel.toInt (pulseWidthUs.toInt : Rat) s)

/-- The pulse width of `SERVO_CS` (R126): the straight line, then the clamp; the speed itself is not clamped (D15). -/
def continuousPulse (p : Params) (speed : Int) : Rat :=
  clampRat (p.csNeutralUs + speed * p.csDeflectUs / p.csSpeedMax) p.csMinUs p.csMaxUs

/-- `SERVO_CS channel, speed` (R126). -/
def execServoCs (channel speed : Word) (s : State) : Result :=
  .next (servoPulse channel.toInt (continuousPulse s.params speed.toInt) s)

/-- The pulse width of `SERVO_ANG` (R128). -/
def anglePulse (p : Params) (degrees : Int) : Rat :=
  clampRat (interpolate p.angPw0Us p.angPw270Us (angNorm degrees) angSpan) p.angMinUs p.angMaxUs

/-- `SERVO_ANG channel, degrees` (R128). -/
def execServoAng (channel degrees : Word) (s : State) : Result :=
  .next (servoPulse channel.toInt (anglePulse s.params degrees.toInt) s)

/-- The pulse width of `SERVO_WIDE` (R130, D17). -/
def widePulse (p : Params) (degrees : Int) : Rat :=
  clampRat (interpolate p.widePw0Us p.widePw360Us (emod degrees 360) 360) p.wideMinUs p.wideMaxUs

/-- `SERVO_WIDE channel, degrees` (R130). -/
def execServoWide (channel degrees : Word) (s : State) : Result :=
  .next (servoPulse channel.toInt (widePulse s.params degrees.toInt) s)

end Sys2Proof.Machine
end

