-- ==== Sys2Proof/Machine/Mp3.lean ====
section
/-!
DEFINITION. Sys2Proof/Machine/Mp3.lean: the MP3 framer's commands (spec/44_mp3.md). The command bytes of the seven high-level
commands are open parameters (R7, D29).
-/

namespace Sys2Proof.Machine

/-- `MP3_INIT txPin, rxPin` (R190). -/
def execMp3Init (txPin rxPin : Word) (s : State) : Result :=
  if s.mp3.init then .next s
  else
    .next (match pinOf s.params txPin.toInt, pinOf s.params rxPin.toInt with
      | some tx, some rx =>
        setMp3Init (emit (.uartCfg tx rx mp3Baud) { s with mp3 := { s.mp3 with tx := tx, rx := rx } })
      | _, _ => s)

/-- `MP3_SEND command ; payload` (R192). -/
def execMp3Send (command : Word) (payload : List Byte) (s : State) : Result :=
  .next (sendFrame command.toInt payload s)

/-- `MP3_SENDSTR command ; text` (R195). -/
def execMp3Sendstr (command : Word) (text : List Byte) (s : State) : Result :=
  .next (sendFrame command.toInt text s)

/-- `MP3_PLAY` (R197). -/
def execMp3Play (s : State) : Result := .next (sendFrame s.params.mp3CmdPlay.toNat [] s)

/-- `MP3_STOP` (R198). -/
def execMp3Stop (s : State) : Result := .next (sendFrame s.params.mp3CmdStop.toNat [] s)

/-- `MP3_NEXT` (R199). -/
def execMp3Next (s : State) : Result := .next (sendFrame s.params.mp3CmdNext.toNat [] s)

/-- `MP3_PREV` (R200). -/
def execMp3Prev (s : State) : Result := .next (sendFrame s.params.mp3CmdPrev.toNat [] s)

/-- `MP3_VOL volume` (R201). -/
def execMp3Vol (volume : Word) (s : State) : Result :=
  .next (sendFrame s.params.mp3CmdVol.toNat [lo8 (clamp volume.toInt 0 mp3VolMax)] s)

/-- `MP3_PLAYNUM number` (R202). -/
def execMp3Playnum (number : Word) (s : State) : Result :=
  .next (sendFrame s.params.mp3CmdPlaynum.toNat [lo8 (clamp number.toInt mp3FileMin mp3FileMax)] s)

/-- `MP3_PLAYNAME ; name` (R203). -/
def execMp3Playname (name : List Byte) (s : State) : Result :=
  .next (sendFrame s.params.mp3CmdPlayname.toNat name s)

end Sys2Proof.Machine
end

