-- ==== Sys2Proof/Machine/Pixel.lean ====
section
/-!
DEFINITION. Sys2Proof/Machine/Pixel.lean: the pixel buffer's commands (spec/42_pixel.md).
-/

namespace Sys2Proof.Machine

/-- The matrix that `PIX_INIT` creates: its dimensions and pin, and a buffer of zeros (R150). -/
def createMatrix (rows cols : Int) (pin : Nat) (s : State) : State :=
  { s with
    pix := { s.pix with rows := (clamp rows 1 255).toNat, cols := (clamp cols 1 255).toNat, pin := pin, buf := [] } }

/-- `PIX_INIT rows, columns, pin` (R150). -/
def execPixInit (rows columns pin : Word) (s : State) : Result :=
  if s.pix.init then .next s
  else
    .next (match pinOf s.params pin.toInt with
      | none => s
      | some p => setPixInit (ledRefresh (ledRefresh (createMatrix rows.toInt columns.toInt p s))))

/-- `PIX_SET y, x, r, g, b` (R152). -/
def execPixSet (y x r g b : Word) (s : State) : Result :=
  .next (if s.pix.init then setPixel y.toInt x.toInt r.toInt g.toInt b.toInt s else s)

/-- One row of `PIX_FILL`'s loop: columns 0 to `n`-1 (R155). -/
def fillRow (row : Nat) (r g b : Int) : Nat → State → State
  | 0, s => s
  | n + 1, s => setPixel row n r g b (fillRow row r g b n s)

/-- `PIX_FILL`'s loop: rows 0 to `m`-1 of `cols` columns each (R155). -/
def fillRows (cols : Nat) (r g b : Int) : Nat → State → State
  | 0, s => s
  | m + 1, s => fillRow m r g b cols (fillRows cols r g b m s)

/-- `PIX_FILL r, g, b` (R155). -/
def execPixFill (r g b : Word) (s : State) : Result :=
  .next (if s.pix.init then fillRows s.pix.cols r.toInt g.toInt b.toInt s.pix.rows s else s)

/-- Where the serpentine adapter sends logical coordinates (y, x): the buffer's row and column (R157, D19). -/
def serpentine (y x : Int) : Int × Int :=
  let y' := clamp y 0 7
  let x' := clamp x 0 7
  if emod x' 2 = 0 then (x', y') else (x', 7 - y')

/-- `PIX_SETS y, x, r, g, b` (R157). -/
def execPixSets (y x r g b : Word) (s : State) : Result :=
  .next (if s.pix.init then
      if s.pix.rows = serpDim ∧ s.pix.cols = serpDim then
        setPixel (serpentine y.toInt x.toInt).1 (serpentine y.toInt x.toInt).2 r.toInt g.toInt b.toInt s
      else s
    else s)

/-- `PIX_REFRESH` (R160). -/
def execPixRefresh (s : State) : Result :=
  if s.pix.init then .next (ledRefresh s) else .next s

end Sys2Proof.Machine
end

