-- ==== Sys2Proof/Machine/Pwm.lean ====
section
/-!
DEFINITION. Sys2Proof/Machine/Pwm.lean: the PWM driver's commands (spec/40_pwm.md).
-/

namespace Sys2Proof.Machine

/-- `PWM_CFG addr, levels, period` (R100). -/
def execPwmCfg (addr levels period : Word) (s : State) : Result :=
  if s.pwm.init then .next s
  else
    .next { s with
      pwm := { s.pwm with
        addr := BitVec.ofInt 7 (clamp addr.toInt 0 127)
        levels := (clamp levels.toInt 2 65536).toNat
        period := (clamp period.toInt 1 2147483647).toNat } }

/-- `PWM_INIT` (R101). -/
def execPwmInit (s : State) : Result :=
  if s.pwm.init then .next s else .next (initSeq s)

/-- `PWM_SETCH channel, onTick, offTick` (R104). -/
def execPwmSetch (channel onTick offTick : Word) (s : State) : Result :=
  .next (setChannel channel.toInt onTick.toInt offTick.toInt s)

end Sys2Proof.Machine
end

