-- ==== Sys2Proof/Machine/Ultrasonic.lean ====
section
/-!
DEFINITION. Sys2Proof/Machine/Ultrasonic.lean: the ranging command (spec/43_ultrasonic.md).
-/

namespace Sys2Proof.Machine

/-- The bounded loop of at most two attempts, with the retry delay between them (R170): the width it ends with and the state. -/
def ranging (p : Nat) (m : PullMode) (s : State) : PulseWidth × State :=
  let first := attempt p m s
  if first.1 = 0 then attempt p m (emit (.delayUs usrRetryUs) first.2) else first

/-- Step 5 of R170: a successful reading becomes the last known good value of its pin. -/
def recordSuccess (p : Nat) (w : PulseWidth) (s : State) : State :=
  setFbUsed p false { s with usr := { s.usr with hist := tableSet 0 s.usr.hist p w, lastPw := w } }

/-- The raw width a measurement converts (R170, R174): the reading, else the fallback where it is allowed, else 0. -/
def rawWidth (p : Nat) (w : PulseWidth) (s : State) : PulseWidth :=
  if w ≠ 0 then w else if fbUsedAt s p then 0 else histAt s p

/-- The bookkeeping of R170: success, timeout with the fallback, timeout without it. -/
def bookkeeping (p : Nat) (w : PulseWidth) (s : State) : State :=
  if w ≠ 0 then recordSuccess p w s else setFbUsed p (!fbUsedAt s p) s

/-- `floor(raw * mul / dv)` (R176). -/
def distance (raw : PulseWidth) (mul dv : Int) : Int := (raw.val : Int) * mul / dv

/-- `USR_MEASURE` with its selectors resolved (R170). -/
def measurePin (p : Nat) (m : PullMode) (mul dv : Int) (s : State) : State :=
  let r := ranging p m s
  setRes (distance (rawWidth p r.1 r.2) mul dv) (setPhase .idle (bookkeeping p r.1 r.2))

/-- `USR_MEASURE pin, pullMode, multiplier, divisor` (R170). -/
def execUsrMeasure (pin pullMode multiplier divisor : Word) (s : State) : Result :=
  .next (match pinOf s.params pin.toInt, pullModeOf pullMode.toInt with
    | some p, some m => measurePin p m (clamp multiplier.toInt 0 65535) (clamp divisor.toInt 1 65535) s
    | _, _ => setRes 0 s)

end Sys2Proof.Machine
end

