-- ==== Sys2Proof/Machine/Dispatch.lean ====
section
/-!
DEFINITION. Sys2Proof/Machine/Dispatch.lean: one arm for each command of spec/30_encoding.md R73.
-/

namespace Sys2Proof.Machine

/-- The meaning of a command. -/
def exec (i : Instr) (s : State) : Host.Outcome State Fault Refusal :=
  match i with
  | .pwmCfg addr levels period => Sys2Proof.Machine.execPwmCfg addr levels period s
  | .pwmInit => Sys2Proof.Machine.execPwmInit s
  | .pwmSetch channel onTick offTick => Sys2Proof.Machine.execPwmSetch channel onTick offTick s
  | .motor fwdChannel revChannel speed => Sys2Proof.Machine.execMotor fwdChannel revChannel speed s
  | .servoPw channel pulseWidthUs => Sys2Proof.Machine.execServoPw channel pulseWidthUs s
  | .servoCs channel speed => Sys2Proof.Machine.execServoCs channel speed s
  | .servoAng channel degrees => Sys2Proof.Machine.execServoAng channel degrees s
  | .servoWide channel degrees => Sys2Proof.Machine.execServoWide channel degrees s
  | .pixInit rows columns pin => Sys2Proof.Machine.execPixInit rows columns pin s
  | .pixSet y x r g b => Sys2Proof.Machine.execPixSet y x r g b s
  | .pixFill r g b => Sys2Proof.Machine.execPixFill r g b s
  | .pixSets y x r g b => Sys2Proof.Machine.execPixSets y x r g b s
  | .pixRefresh => Sys2Proof.Machine.execPixRefresh s
  | .usrMeasure pin pullMode multiplier divisor => Sys2Proof.Machine.execUsrMeasure pin pullMode multiplier divisor s
  | .mp3Init txPin rxPin => Sys2Proof.Machine.execMp3Init txPin rxPin s
  | .mp3Send command payload => Sys2Proof.Machine.execMp3Send command payload s
  | .mp3Sendstr command text => Sys2Proof.Machine.execMp3Sendstr command text s
  | .mp3Play => Sys2Proof.Machine.execMp3Play s
  | .mp3Stop => Sys2Proof.Machine.execMp3Stop s
  | .mp3Next => Sys2Proof.Machine.execMp3Next s
  | .mp3Prev => Sys2Proof.Machine.execMp3Prev s
  | .mp3Vol volume => Sys2Proof.Machine.execMp3Vol volume s
  | .mp3Playnum number => Sys2Proof.Machine.execMp3Playnum number s
  | .mp3Playname name => Sys2Proof.Machine.execMp3Playname name s

end Sys2Proof.Machine
end

