-- ==== Sys2Proof/WellFormed.lean ====
section
/-!
DEFINITION. Sys2Proof/WellFormed.lean: which commands the command word can carry.
Every 32-bit slot may hold any value (R72), so the one check is the payload's length: `plen` has 16 bits (R70).
-/

namespace Sys2Proof

/-- The payload a command carries: empty for the formats without one (R71). -/
def Instr.payload : Instr → List Byte
  | .mp3Send _ p => p
  | .mp3Sendstr _ p => p
  | .mp3Playname p => p
  | .pwmCfg _ _ _ => []
  | .pwmInit => []
  | .pwmSetch _ _ _ => []
  | .motor _ _ _ => []
  | .servoPw _ _ => []
  | .servoCs _ _ => []
  | .servoAng _ _ => []
  | .servoWide _ _ => []
  | .pixInit _ _ _ => []
  | .pixSet _ _ _ _ _ => []
  | .pixFill _ _ _ => []
  | .pixSets _ _ _ _ _ => []
  | .pixRefresh => []
  | .usrMeasure _ _ _ _ => []
  | .mp3Init _ _ => []
  | .mp3Play => []
  | .mp3Stop => []
  | .mp3Next => []
  | .mp3Prev => []
  | .mp3Vol _ => []
  | .mp3Playnum _ => []

/-- A command fits the command word: its payload has at most 65535 bytes (R70). A payload over 250 bytes is well formed; it is
presentable and not sent (R82). -/
abbrev Instr.WellFormed (i : Instr) : Prop := i.payload.length ≤ 65535

end Sys2Proof
end

