-- ==== Sys2Proof/Decode.lean ====
section
/-!
DEFINITION. Sys2Proof/Decode.lean: the command word (spec/30_encoding.md R70), which slots each operation reads (R71, R73), the
decoder, total on any bytes, and the encoder (R83).
-/

namespace Sys2Proof

/-- The fields of a 23-byte header, and the payload that follows it (R70). -/
structure Header where
  op : Byte
  plen : BitVec 16
  a0 : Word
  a1 : Word
  a2 : Word
  a3 : Word
  a4 : Word
  payload : List Byte
deriving DecidableEq, Repr

/-- What the bytes at the command port hold. -/
inductive Decoded where
  /-- A whole command, and the bytes after it. -/
  | command (i : Instr) (rest : List Byte)
  /-- A whole command word whose opcode names no operation (R81), and the bytes after it. -/
  | reservedOpcode (op : Byte) (rest : List Byte)
  /-- Fewer bytes than the header, or than `plen` says the payload has. -/
  | incomplete
deriving DecidableEq, Repr

/-- Two bytes, low byte first, as a 16-bit field (R70). -/
def le16 (b0 b1 : Byte) : BitVec 16 := b1 ++ b0

/-- Four bytes, low byte first, as a 32-bit slot (R70). -/
def le32 (b0 b1 b2 b3 : Byte) : Word := b3 ++ (b2 ++ (b1 ++ b0))

/-- The bytes of a 16-bit field, low byte first (R54). -/
def le16Bytes (v : BitVec 16) : List Byte := [v.extractLsb' 0 8, v.extractLsb' 8 8]

/-- The bytes of a 32-bit slot, low byte first (R70). -/
def le32Bytes (v : Word) : List Byte :=
  [v.extractLsb' 0 8, v.extractLsb' 8 8, v.extractLsb' 16 8, v.extractLsb' 24 8]

/-- The first `n` bytes and the rest, if there are `n`. -/
def splitExactly : Nat → List Byte → Option (List Byte × List Byte)
  | 0, bs => some ([], bs)
  | _ + 1, [] => none
  | n + 1, b :: bs =>
    match splitExactly n bs with
    | some (front, rest) => some (b :: front, rest)
    | none => none

/-- Reads one command word: 23 header bytes, then `plen` payload bytes (R70); the bytes after it stay. -/
def parse : List Byte → Option (Header × List Byte)
  | op :: p0 :: p1 ::
    a00 :: a01 :: a02 :: a03 :: a10 :: a11 :: a12 :: a13 :: a20 :: a21 :: a22 :: a23 ::
    a30 :: a31 :: a32 :: a33 :: a40 :: a41 :: a42 :: a43 :: tail =>
    match splitExactly (le16 p0 p1).toNat tail with
    | some (payload, rest) =>
      some ({ op := op, plen := le16 p0 p1, a0 := le32 a00 a01 a02 a03, a1 := le32 a10 a11 a12 a13,
              a2 := le32 a20 a21 a22 a23, a3 := le32 a30 a31 a32 a33, a4 := le32 a40 a41 a42 a43,
              payload := payload }, rest)
    | none => none
  | _ => none

/-- The operation an opcode names, with the slots its format reads (R71, R73); none for a reserved opcode (R81). -/
def Header.instr (h : Header) : Option Instr :=
  match h.op with
  | 0x10#8 => some (.pwmCfg h.a0 h.a1 h.a2)
  | 0x11#8 => some .pwmInit
  | 0x12#8 => some (.pwmSetch h.a0 h.a1 h.a2)
  | 0x20#8 => some (.motor h.a0 h.a1 h.a2)
  | 0x21#8 => some (.servoPw h.a0 h.a1)
  | 0x22#8 => some (.servoCs h.a0 h.a1)
  | 0x23#8 => some (.servoAng h.a0 h.a1)
  | 0x24#8 => some (.servoWide h.a0 h.a1)
  | 0x30#8 => some (.pixInit h.a0 h.a1 h.a2)
  | 0x31#8 => some (.pixSet h.a0 h.a1 h.a2 h.a3 h.a4)
  | 0x32#8 => some (.pixFill h.a0 h.a1 h.a2)
  | 0x33#8 => some (.pixSets h.a0 h.a1 h.a2 h.a3 h.a4)
  | 0x34#8 => some .pixRefresh
  | 0x40#8 => some (.usrMeasure h.a0 h.a1 h.a2 h.a3)
  | 0x50#8 => some (.mp3Init h.a0 h.a1)
  | 0x51#8 => some (.mp3Send h.a0 h.payload)
  | 0x52#8 => some (.mp3Sendstr h.a0 h.payload)
  | 0x53#8 => some .mp3Play
  | 0x54#8 => some .mp3Stop
  | 0x55#8 => some .mp3Next
  | 0x56#8 => some .mp3Prev
  | 0x57#8 => some (.mp3Vol h.a0)
  | 0x58#8 => some (.mp3Playnum h.a0)
  | 0x59#8 => some (.mp3Playname h.payload)
  | _ => none

/-- The decoder: total on any bytes. -/
def decode (bs : List Byte) : Decoded :=
  match parse bs with
  | none => .incomplete
  | some (h, rest) =>
    match h.instr with
    | some i => .command i rest
    | none => .reservedOpcode h.op rest

/-- The header of an operation with the given opcode and slots; `plen` is the payload's length (R83). -/
def mkHeader (op : Byte) (a0 a1 a2 a3 a4 : Word) (payload : List Byte) : Header :=
  { op := op, plen := BitVec.ofNat 16 payload.length, a0 := a0, a1 := a1, a2 := a2, a3 := a3, a4 := a4, payload := payload }

/-- The header of a command: its opcode (R73), its operands in slot order, the unused slots 0 (R83). -/
def headerOf : Instr → Header
  | .pwmCfg a l p => mkHeader 0x10 a l p 0 0 []
  | .pwmInit => mkHeader 0x11 0 0 0 0 0 []
  | .pwmSetch c n f => mkHeader 0x12 c n f 0 0 []
  | .motor f r v => mkHeader 0x20 f r v 0 0 []
  | .servoPw c w => mkHeader 0x21 c w 0 0 0 []
  | .servoCs c v => mkHeader 0x22 c v 0 0 0 []
  | .servoAng c d => mkHeader 0x23 c d 0 0 0 []
  | .servoWide c d => mkHeader 0x24 c d 0 0 0 []
  | .pixInit r c p => mkHeader 0x30 r c p 0 0 []
  | .pixSet y x r g b => mkHeader 0x31 y x r g b []
  | .pixFill r g b => mkHeader 0x32 r g b 0 0 []
  | .pixSets y x r g b => mkHeader 0x33 y x r g b []
  | .pixRefresh => mkHeader 0x34 0 0 0 0 0 []
  | .usrMeasure p m mul dv => mkHeader 0x40 p m mul dv 0 []
  | .mp3Init t r => mkHeader 0x50 t r 0 0 0 []
  | .mp3Send c p => mkHeader 0x51 c 0 0 0 0 p
  | .mp3Sendstr c p => mkHeader 0x52 c 0 0 0 0 p
  | .mp3Play => mkHeader 0x53 0 0 0 0 0 []
  | .mp3Stop => mkHeader 0x54 0 0 0 0 0 []
  | .mp3Next => mkHeader 0x55 0 0 0 0 0 []
  | .mp3Prev => mkHeader 0x56 0 0 0 0 0 []
  | .mp3Vol v => mkHeader 0x57 v 0 0 0 0 []
  | .mp3Playnum n => mkHeader 0x58 n 0 0 0 0 []
  | .mp3Playname p => mkHeader 0x59 0 0 0 0 0 p

/-- The bytes of a command word, in the order the port takes them (R70). -/
def Header.bytes (h : Header) : List Byte :=
  (h.op :: le16Bytes h.plen) ++ le32Bytes h.a0 ++ le32Bytes h.a1 ++ le32Bytes h.a2 ++ le32Bytes h.a3 ++ le32Bytes h.a4 ++ h.payload

/-- The encoder: the bytes of a well-formed command (R70, R73, R83). -/
def encode (i : Instr) : List Byte := (headerOf i).bytes

/-- Byte `k` of a word numbered as spec/opcode_table.json numbers it: bit 0 is the least significant bit of byte 0 (R70). -/
def wordByte (w k : Nat) : Byte := BitVec.ofNat 8 (w >>> (8 * k))

/-- The bytes of the command word whose bits are `w` up to `nbits` and 0 above: the header, then as many payload bytes as its
`plen` field says (R70). -/
def wordBytes (nbits w : Nat) : List Byte :=
  (List.range (23 + (le16 (wordByte (w % 2 ^ nbits) 1) (wordByte (w % 2 ^ nbits) 2)).toNat)).map (wordByte (w % 2 ^ nbits))

/-- The instruction the decoder reads from the word `w` of `nbits` bits. -/
def decodeTableWord (nbits w : Nat) : Option Instr :=
  match decode (wordBytes nbits w) with
  | .command i _ => some i
  | .reservedOpcode _ _ => none
  | .incomplete => none

end Sys2Proof
end

