-- ==== Sys2Proof/Machine/Port.lean ====
section
/-!
DEFINITION. Sys2Proof/Machine/Port.lean: taking a command from the command port (spec/30_encoding.md R70, R71, R81;
spec/70_reset_and_hazards.md R264).
-/

namespace Sys2Proof.Machine

/-- What the block finds at its port. -/
inductive Taken where
  /-- A command to run, and the state with the command consumed. -/
  | run (i : Instr) (s : State)
  /-- Nothing to run, and the state the step ends in. -/
  | nothing (s : State)

/-- `s` with the bytes `bs` standing at the port. -/
def State.withPort (s : State) (bs : List Byte) : State := { s with port := bs }

/-- Takes one command from the port. A whole command is consumed, header and payload (R70, R71); a whole command with a reserved
opcode is consumed and is nothing to run (R81); where no whole command stands at the port nothing is consumed (R5, entry 2). -/
def takeCommand (s : State) : Taken :=
  match decode s.port with
  | .command i rest => .run i (s.withPort rest)
  | .reservedOpcode _ rest => .nothing (s.withPort rest)
  | .incomplete => .nothing s

/-- `s` with the command word `w` of `nbits` bits standing first at the port (entry 1). -/
def placeWord (s : State) (nbits w : Nat) : State := s.withPort (wordBytes nbits w ++ s.port)

end Sys2Proof.Machine
end

