-- ==== Sys2Proof/Machine/Step.lean ====
section
/-!
DEFINITION. Sys2Proof/Machine/Step.lean: one step takes one command from the port and runs it to completion
(spec/70_reset_and_hazards.md R264: "a model has one step per command and no interleaving").
-/

namespace Sys2Proof.Machine

/-- One step of the block. -/
def step (s : State) : Host.Outcome State Fault Refusal :=
  match takeCommand s with
  | .run i t => exec i t
  | .nothing t => .next t

/-- `s` with the command word `w` of `nbits` bits standing where the next step takes its command (entry 1). -/
def State.withFetchWord (s : State) (nbits w : Nat) : State := placeWord s nbits w

end Sys2Proof.Machine
end

