-- ==== Sys2Proof/Safety.lean ====
section
/-!
DEFINITION. Sys2Proof/Safety.lean: the terms in which claims about every run are stated: the invariant of the state
(spec/10_state.md R20 to R33), what may stand on the wires (spec/00_scope.md R12), and the readings of the output trace that the
spec's properties use.
-/

namespace Sys2Proof.Machine

/-- The invariant: every field in the range R33 gives it, the tables in their canonical form, and the ties between fields that
R26, R27, R30 and R31 state. Reset has it and every step keeps it. -/
structure State.Inv (s : State) : Prop where
  /-- the open parameters meet R7's constraints -/
  params : s.params.Valid
  /-- R23 -/
  levels : 2 ≤ s.pwm.levels ∧ s.pwm.levels ≤ 65536
  /-- R22 -/
  period : 1 ≤ s.pwm.period ∧ s.pwm.period ≤ 2147483647
  /-- R26: the matrix, once created, has dimensions in [1, 255] -/
  created : s.pix.init = true → (1 ≤ s.pix.rows ∧ s.pix.rows ≤ 255) ∧ (1 ≤ s.pix.cols ∧ s.pix.cols ≤ 255)
  /-- R26, R27: before that its fields are as at reset -/
  uncreated : s.pix.init = false → s.pix.rows = 0 ∧ s.pix.cols = 0 ∧ s.pix.pin = 0 ∧ s.pix.buf = []
  /-- R26 -/
  pixPin : s.pix.pin < s.params.nPins
  /-- R27: no byte beyond the buffer's length -/
  bufRange : ∀ c ∈ s.pix.buf, c.1 < fbSize s
  /-- the framebuffer's canonical form (entry 7) -/
  bufWf : Memory.wf s.pix.buf
  /-- R28: history only for mapped pins -/
  histPins : ∀ c ∈ s.usr.hist, c.1 < s.params.nPins
  /-- the history's canonical form (entry 9) -/
  histWf : tableWf 0 s.usr.hist
  /-- R30: flags only for mapped pins -/
  fbPins : ∀ c ∈ s.usr.fbUsed, c.1 < s.params.nPins
  /-- the flags' canonical form (entry 9) -/
  fbWf : tableWf false s.usr.fbUsed
  /-- R28, R29: while no measurement has succeeded on any pin, none has a history -/
  noHistory : s.usr.lastPw = 0 → s.usr.hist = []
  /-- R30: Idle whenever no `USR_MEASURE` is in progress -/
  phase : s.usr.phase = .idle
  /-- R31 -/
  mp3Pins : s.mp3.tx < s.params.nPins ∧ s.mp3.rx < s.params.nPins
  /-- R31: the pins are written by the first effective `MP3_INIT` only -/
  mp3Uninit : s.mp3.init = false → s.mp3.tx = 0 ∧ s.mp3.rx = 0

/-- What an event may be, given the state it stands in the trace of: I2C traffic only to `PWM.ADDR` and only once the driver is
initialised, in the three transaction kinds of R74 to R76 (R24, C16); the delays of R228; ranging on mapped pins (R170); the LED
wire carrying the whole buffer on `PIX.PIN` (R160); the UART redirected once, to `MP3.TX` and `MP3.RX` at 9600 (R190), and
carrying frames of at most 250 payload bytes (R191). -/
def Event.Lawful (s : State) : Event → Prop
  | .i2cWrite a bytes => s.pwm.init = true ∧ a = s.pwm.addr ∧ (bytes.length = 2 ∨ bytes.length = 5)
  | .i2cReadReg a r _ => s.pwm.init = true ∧ a = s.pwm.addr ∧ r = s.params.regMode
  | .delayUs n => n = 5000 ∨ n = 2 ∨ n = 10 ∨ n = 10000
  | .gpioPull p _ => p < s.params.nPins
  | .gpioWrite p _ => p < s.params.nPins
  | .pulseIn p limit _ => p < s.params.nPins ∧ limit = 25000
  | .ledSend p bytes => s.pix.init = true ∧ p = s.pix.pin ∧ bytes.length = fbSize s
  | .uartCfg tx rx baud => s.mp3.init = true ∧ tx = s.mp3.tx ∧ rx = s.mp3.rx ∧ baud = 9600
  | .uartTx bytes => s.mp3.init = true ∧ ∃ c p, p.length ≤ 250 ∧ bytes = frame c p

/-- Every event of the trace is lawful. -/
def State.WiresLawful (s : State) : Prop := ∀ e ∈ s.trace, e.Lawful s

/-- The `plen` field of the bytes at a command port (R70: header bytes 1 and 2, low byte first). -/
def plenField (bs : List Byte) : Nat := (bs.getD 1 0).toNat + 256 * (bs.getD 2 0).toNat

/-- The five bytes of a channel record (R76), spelled out by arithmetic: the register number, then each tick low byte first. -/
def spelledRecord (p : Params) (c on off : Int) : List Byte :=
  [BitVec.ofInt 8 (p.regChBase.toNat + p.chStride * c), BitVec.ofInt 8 on, BitVec.ofInt 8 (on / 256),
   BitVec.ofInt 8 off, BitVec.ofInt 8 (off / 256)]

/-- The bytes of an MP3 frame (R79), spelled out by arithmetic. -/
def spelledFrame (c : Nat) (p : List Byte) : List Byte :=
  [0x7E, BitVec.ofNat 8 (p.length + 3), BitVec.ofNat 8 c] ++ p ++
    [BitVec.ofNat 8 ((0x7E + (p.length + 3) + c % 256 + (p.map BitVec.toNat).sum) % 256), 0xEF]

/-- The events of one ranging attempt on pin `p` that measures `w` (R172). -/
def attemptTrace (p : Nat) (m : PullMode) (w : PulseWidth) : List Event :=
  [.gpioPull p m, .gpioWrite p false, .delayUs 2, .gpioWrite p true, .delayUs 10, .gpioWrite p false, .pulseIn p 25000 w]

/-- The next `n` `PulseIn`s return 0: the sensor does not answer (R175). -/
def NoAnswerFor (s : State) (n : Nat) : Prop := ∀ j, j < n → pulseAnswer { s with env := Env.afterPulse^[j] s.env } = 0

/-- The `offTick` of an event that is a channel record for the register `reg` at the address `a` (R76). -/
def recordOff (a : I2cAddr) (reg : Byte) : Event → Option (BitVec 16)
  | .i2cWrite b [r, _, _, f0, f1] => if b = a ∧ r = reg then some (le16 f0 f1) else none
  | _ => none

/-- The last-written tick of channel `c`: "the `offTick` of the latest channel record for `c` in the trace"
(spec/10_state.md, after R25); nothing where none was written. -/
def lastWrittenTick (p : Params) (a : I2cAddr) (c : Fin nChannels) (tr : List Event) : Option (BitVec 16) :=
  (tr.filterMap (recordOff a (channelReg p c))).getLast?

/-- At most one of two channels was last written a tick other than 0 (R121). -/
def atMostOneDriven (p : Params) (a : I2cAddr) (f r : Fin nChannels) (tr : List Event) : Prop :=
  (lastWrittenTick p a f tr).getD 0 = 0 ∨ (lastWrittenTick p a r tr).getD 0 = 0

/-- The channel operands of a command: the channels it may write a record to (R104, R120, R124, R126, R128, R130). -/
def pwmChannels : Instr → List Word
  | .pwmSetch channel _ _ => [channel]
  | .motor fwdChannel revChannel _ => [fwdChannel, revChannel]
  | .servoPw channel _ => [channel]
  | .servoCs channel _ => [channel]
  | .servoAng channel _ => [channel]
  | .servoWide channel _ => [channel]
  | .pwmCfg _ _ _ => []
  | .pwmInit => []
  | .pixInit _ _ _ => []
  | .pixSet _ _ _ _ _ => []
  | .pixFill _ _ _ => []
  | .pixSets _ _ _ _ _ => []
  | .pixRefresh => []
  | .usrMeasure _ _ _ _ => []
  | .mp3Init _ _ => []
  | .mp3Send _ _ => []
  | .mp3Sendstr _ _ => []
  | .mp3Play => []
  | .mp3Stop => []
  | .mp3Next => []
  | .mp3Prev => []
  | .mp3Vol _ => []
  | .mp3Playnum _ => []
  | .mp3Playname _ => []

/-- The motor pair discipline (R121, R263) for the pair (f, r): the command is `MOTOR` on this same pair in this order, or none of the
channels it writes has the register of either. -/
def PairDiscipline (p : Params) (f r : Fin nChannels) (i : Instr) : Prop :=
  (∃ fw rw speed, i = .motor fw rw speed ∧ fw.toInt = (f.val : Int) ∧ rw.toInt = (r.val : Int)) ∨
  ∀ c ∈ pwmChannels i, ∀ ch : Fin nChannels, c.toInt = (ch.val : Int) →
    channelReg p ch ≠ channelReg p f ∧ channelReg p ch ≠ channelReg p r

end Sys2Proof.Machine
end

