-- ==== Sys2Proof/Certificates/Slice0/Obligations.lean ====
section
/-!
DEFINITION. Sys2Proof/Certificates/Slice0/Obligations.lean: the statements about the model, from the numbered rules of spec/.
A statement whose docstring names a decision D<n> rests there on the spec's own choice (spec/92_eei_decisions.md), not on the source
document; one that names an entry rests on the model's choice (notes/assumptions/).
-/

open Sys2Proof Sys2Proof.Machine

/-! ## The command word and the step -/

/-- Decoding the bytes of a well-formed command gives it back, with every operand and payload byte, and leaves what follows at the
port (30_encoding.md section 1 and section 4; D1). -/
def Obligations.DecodeOfEncode : Prop :=
  ∀ (i : Instr) (rest : List Byte), i.WellFormed → decode (encode i ++ rest) = .command i rest

/-- Whatever the bytes, a decoder finds the end of a command from `plen` alone: a whole command word, named or reserved, is the 23
header bytes and `plen` payload bytes; fewer bytes are no whole command; what is decoded is well formed (30_encoding.md section 1; D1). -/
def Obligations.PlenAloneEndsCommand : Prop :=
  ∀ bs : List Byte,
    (∀ i rest, decode bs = .command i rest →
      23 + plenField bs ≤ bs.length ∧ rest = bs.drop (23 + plenField bs) ∧ i.WellFormed) ∧
    (∀ op rest, decode bs = .reservedOpcode op rest →
      23 + plenField bs ≤ bs.length ∧ rest = bs.drop (23 + plenField bs) ∧ some op = bs.head?) ∧
    (decode bs = .incomplete ↔ bs.length < 23 ∨ bs.length < 23 + plenField bs)

/-- An ignored field may hold any value and has no effect; an ignored payload is consumed and has no effect: two headers with the same
opcode that agree on the fields its format reads decode to the same command (30_encoding.md section 1, formats; D1). -/
def Obligations.IgnoredFieldsHaveNoEffect : Prop :=
  ∀ (h k : Header) (rest : List Byte) (i : Instr),
    h.plen.toNat = h.payload.length → k.plen.toNat = k.payload.length → h.op = k.op →
    (h.op ∈ [0x10, 0x12, 0x20, 0x21, 0x22, 0x23, 0x24, 0x30, 0x31, 0x32, 0x33, 0x40, 0x50, 0x51, 0x52, 0x57, 0x58] → h.a0 = k.a0) →
    (h.op ∈ [0x10, 0x12, 0x20, 0x21, 0x22, 0x23, 0x24, 0x30, 0x31, 0x32, 0x33, 0x40, 0x50] → h.a1 = k.a1) →
    (h.op ∈ [0x10, 0x12, 0x20, 0x30, 0x31, 0x32, 0x33, 0x40] → h.a2 = k.a2) →
    (h.op ∈ [0x31, 0x33, 0x40] → h.a3 = k.a3) →
    (h.op ∈ [0x31, 0x33] → h.a4 = k.a4) →
    (h.op ∈ [0x51, 0x52, 0x59] → h.payload = k.payload) →
    decode (h.bytes ++ rest) = .command i rest → decode (k.bytes ++ rest) = .command i rest

/-- A command with a reserved opcode is a silent no-op: its header and payload are consumed, no state changes, no event is emitted
(30_encoding.md section 3; D3). -/
def Obligations.ReservedOpcodeIsSilent : Prop :=
  ∀ (h : Header) (rest : List Byte) (s : State), h.plen.toNat = h.payload.length →
    h.op ∉ [0x10, 0x11, 0x12, 0x20, 0x21, 0x22, 0x23, 0x24, 0x30, 0x31, 0x32, 0x33, 0x34, 0x40,
      0x50, 0x51, 0x52, 0x53, 0x54, 0x55, 0x56, 0x57, 0x58, 0x59] →
    s.port = h.bytes ++ rest → step s = .next { s with port := rest }

/-- One word for each of the 24 operations, written out byte by byte, decodes to the command it stands for, so that every opcode of
the opcode map is fixed; and an ignored payload is consumed (95_test_vectors.md section 2.1: E1 to E24, E30; 30_encoding.md section 1,
opcode map; D1). -/
def Obligations.WrittenWordsDecode : Prop :=
  decode [0x10, 0, 0, 0x40, 0, 0, 0, 0, 0x10, 0, 0, 0, 0x50, 0, 0, 0, 0, 0, 0, 0, 0, 0, 0] = .command (.pwmCfg 0x40 4096 20480) [] ∧
  decode [0x11, 0, 0, 0, 0, 0, 0, 0, 0, 0, 0, 0, 0, 0, 0, 0, 0, 0, 0, 0, 0, 0, 0] = .command .pwmInit [] ∧
  decode [0x12, 0, 0, 0x03, 0, 0, 0, 0, 0, 0, 0, 0x33, 0x01, 0, 0, 0, 0, 0, 0, 0, 0, 0, 0] = .command (.pwmSetch 3 0 307) [] ∧
  decode [0x20, 0, 0, 0, 0, 0, 0, 0x01, 0, 0, 0, 0x01, 0xF0, 0xFF, 0xFF, 0, 0, 0, 0, 0, 0, 0, 0] =
    .command (.motor 0 1 (BitVec.ofInt 32 (-4095))) [] ∧
  decode [0x21, 0, 0, 0x03, 0, 0, 0, 0xDC, 0x05, 0, 0, 0, 0, 0, 0, 0, 0, 0, 0, 0, 0, 0, 0] = .command (.servoPw 3 1500) [] ∧
  decode [0x22, 0, 0, 0x02, 0, 0, 0, 0xCE, 0xFF, 0xFF, 0xFF, 0, 0, 0, 0, 0, 0, 0, 0, 0, 0, 0, 0] =
    .command (.servoCs 2 (BitVec.ofInt 32 (-50))) [] ∧
  decode [0x23, 0, 0, 0x04, 0, 0, 0, 0xD3, 0xFF, 0xFF, 0xFF, 0, 0, 0, 0, 0, 0, 0, 0, 0, 0, 0, 0] =
    .command (.servoAng 4 (BitVec.ofInt 32 (-45))) [] ∧
  decode [0x24, 0, 0, 0x05, 0, 0, 0, 0x67, 0x01, 0, 0, 0, 0, 0, 0, 0, 0, 0, 0, 0, 0, 0, 0] = .command (.servoWide 5 359) [] ∧
  decode [0x30, 0, 0, 0x08, 0, 0, 0, 0x08, 0, 0, 0, 0x01, 0, 0, 0, 0, 0, 0, 0, 0, 0, 0, 0] = .command (.pixInit 8 8 1) [] ∧
  decode [0x31, 0, 0, 0, 0, 0, 0, 0, 0, 0, 0, 0x0A, 0, 0, 0, 0x14, 0, 0, 0, 0x1E, 0, 0, 0] = .command (.pixSet 0 0 10 20 30) [] ∧
  decode [0x32, 0, 0, 0x01, 0, 0, 0, 0x02, 0, 0, 0, 0x03, 0, 0, 0, 0, 0, 0, 0, 0, 0, 0, 0] = .command (.pixFill 1 2 3) [] ∧
  decode [0x33, 0, 0, 0x03, 0, 0, 0, 0x01, 0, 0, 0, 0x0A, 0, 0, 0, 0x14, 0, 0, 0, 0x1E, 0, 0, 0] =
    .command (.pixSets 3 1 10 20 30) [] ∧
  decode [0x34, 0, 0, 0, 0, 0, 0, 0, 0, 0, 0, 0, 0, 0, 0, 0, 0, 0, 0, 0, 0, 0, 0] = .command .pixRefresh [] ∧
  decode [0x40, 0, 0, 0x02, 0, 0, 0, 0, 0, 0, 0, 0x01, 0, 0, 0, 0x3A, 0, 0, 0, 0, 0, 0, 0] = .command (.usrMeasure 2 0 1 58) [] ∧
  decode [0x50, 0, 0, 0x0E, 0, 0, 0, 0x0D, 0, 0, 0, 0, 0, 0, 0, 0, 0, 0, 0, 0, 0, 0, 0] = .command (.mp3Init 14 13) [] ∧
  decode [0x51, 0x02, 0, 0x31, 0, 0, 0, 0, 0, 0, 0, 0, 0, 0, 0, 0, 0, 0, 0, 0, 0, 0, 0, 0x0F, 0xFF] =
    .command (.mp3Send 0x31 [0x0F, 0xFF]) [] ∧
  decode [0x52, 0x05, 0, 0x07, 0, 0, 0, 0, 0, 0, 0, 0, 0, 0, 0, 0, 0, 0, 0, 0, 0, 0, 0, 0x61, 0x2E, 0x6D, 0x70, 0x33] =
    .command (.mp3Sendstr 0x07 [0x61, 0x2E, 0x6D, 0x70, 0x33]) [] ∧
  decode [0x53, 0, 0, 0, 0, 0, 0, 0, 0, 0, 0, 0, 0, 0, 0, 0, 0, 0, 0, 0, 0, 0, 0] = .command .mp3Play [] ∧
  decode [0x54, 0, 0, 0, 0, 0, 0, 0, 0, 0, 0, 0, 0, 0, 0, 0, 0, 0, 0, 0, 0, 0, 0] = .command .mp3Stop [] ∧
  decode [0x55, 0, 0, 0, 0, 0, 0, 0, 0, 0, 0, 0, 0, 0, 0, 0, 0, 0, 0, 0, 0, 0, 0] = .command .mp3Next [] ∧
  decode [0x56, 0, 0, 0, 0, 0, 0, 0, 0, 0, 0, 0, 0, 0, 0, 0, 0, 0, 0, 0, 0, 0, 0] = .command .mp3Prev [] ∧
  decode [0x57, 0, 0, 0x28, 0, 0, 0, 0, 0, 0, 0, 0, 0, 0, 0, 0, 0, 0, 0, 0, 0, 0, 0] = .command (.mp3Vol 40) [] ∧
  decode [0x58, 0, 0, 0, 0, 0, 0, 0, 0, 0, 0, 0, 0, 0, 0, 0, 0, 0, 0, 0, 0, 0, 0] = .command (.mp3Playnum 0) [] ∧
  decode [0x59, 0x05, 0, 0, 0, 0, 0, 0, 0, 0, 0, 0, 0, 0, 0, 0, 0, 0, 0, 0, 0, 0, 0, 0x61, 0x2E, 0x6D, 0x70, 0x33] =
    .command (.mp3Playname [0x61, 0x2E, 0x6D, 0x70, 0x33]) [] ∧
  decode [0x34, 2, 0, 0, 0, 0, 0, 0, 0, 0, 0, 0, 0, 0, 0, 0, 0, 0, 0, 0, 0, 0, 0, 0xAA, 0xBB, 0x11] = .command .pixRefresh [0x11]

/-- A step runs the command that stands decoded at the port, in the state in which that command is consumed; in particular the
encoding of a well-formed command runs that command (70_reset_and_hazards.md section 3, one step per command; D36, entry 1). -/
def Obligations.StepRunsDecodedCommand : Prop :=
  (∀ (s : State) (i : Instr) (rest : List Byte), decode s.port = .command i rest → step s = exec i { s with port := rest }) ∧
  (∀ (s : State) (i : Instr) (rest : List Byte), i.WellFormed → s.port = encode i ++ rest →
    step s = exec i { s with port := rest })

/-- While no whole command stands at the port the block does nothing (the model's choice, entry 2; the block "executes nothing on its
own", 00_scope.md section 2). -/
def Obligations.StepWaitsForWholeCommand : Prop :=
  ∀ s : State, s.port.length < 23 ∨ s.port.length < 23 + plenField s.port → step s = .next s

/-! ## PWM driver -/

/-- `PWM_CFG` before initialisation sets the three fields to the clamped operands and does nothing else (40_pwm.md, PWM_CFG; D5). -/
def Obligations.PwmCfgSetsConfiguration : Prop :=
  ∀ (s : State) (addr levels period : Word), s.pwm.init = false →
    ∃ t, exec (.pwmCfg addr levels period) s = .next t ∧ t = { s with pwm := t.pwm } ∧ t.pwm.init = false ∧
      (t.pwm.addr.toNat : Int) = max 0 (min addr.toInt 127) ∧
      (t.pwm.levels : Int) = max 2 (min levels.toInt 65536) ∧
      (t.pwm.period : Int) = max 1 (min period.toInt 2147483647)

/-- The configuration freeze: once the driver is initialised no step changes its address, levels or period, `PWM_CFG` changes nothing
and emits nothing, and the prescaler and the servo conversions use the one configuration: a channel write, servo or motor command on a
channel in [0, 15] leaves the driver initialised, with the configuration it had before. -/
def Obligations.PwmConfigurationFreezes : Prop :=
  ∀ s : State,
    (s.pwm.init = true →
      (∀ t, step s = .next t → t.pwm = s.pwm) ∧
      (∀ addr levels period : Word, exec (.pwmCfg addr levels period) s = .next s)) ∧
    (∀ (i : Instr) (channel a b : Word) (t : State), 0 ≤ channel.toInt → channel.toInt ≤ 15 →
      i ∈ [.pwmSetch channel a b, .motor channel a b, .motor a channel b, .servoPw channel a, .servoCs channel a,
        .servoAng channel a, .servoWide channel a] →
      exec i s = .next t → t.pwm = { s.pwm with init := true })

/-- `PWM_INIT` on a driver not initialised emits the seven events of the initialisation sequence in their order, for whatever byte
`m` the chip answers, and sets the flag; on an initialised driver it does nothing (40_pwm.md, PWM_INIT; 30_encoding.md, prescale
byte; D7, D8). -/
def Obligations.PwmInitRunsSequence : Prop :=
  ∀ (s : State) (m : Byte),
    (s.pwm.init = false → m = readAnswer s →
      exec .pwmInit s = .next { s with
        pwm := { s.pwm with init := true }
        env := s.env.afterRead
        trace := s.trace ++
          [.i2cWrite s.pwm.addr [s.params.regMode, s.params.modeReset],
           .i2cReadReg s.pwm.addr s.params.regMode m,
           .i2cWrite s.pwm.addr [s.params.regMode, (m &&& s.params.modeKeepMask) ||| s.params.modeSleepBit],
           .i2cWrite s.pwm.addr [s.params.regPrescale,
             BitVec.ofInt 8 (max 0 (min (25 * (s.pwm.period : Int) / (s.pwm.levels : Int) - 1) 255))],
           .i2cWrite s.pwm.addr [s.params.regMode, m],
           .delayUs 5000,
           .i2cWrite s.pwm.addr [s.params.regMode, m ||| s.params.modeRunBits]] }) ∧
    (s.pwm.init = true → exec .pwmInit s = .next s)

/-- `PWM_SETCH` on a channel in [0, 15] of an initialised driver writes one channel record: the channel's register number, then each
tick's low 16 bits, low byte first (40_pwm.md, PWM_SETCH; 30_encoding.md, channel record; D10, D11). -/
def Obligations.PwmSetchWritesRecord : Prop :=
  ∀ (s : State) (channel onTick offTick : Word), s.pwm.init = true → 0 ≤ channel.toInt → channel.toInt ≤ 15 →
    exec (.pwmSetch channel onTick offTick) s = .next { s with
      trace := s.trace ++
        [.i2cWrite s.pwm.addr (spelledRecord s.params channel.toInt onTick.toInt offTick.toInt)] }

/-- A channel outside [0, 15] makes `PWM_SETCH` and the four servo commands silent no-ops, and the driver is not initialised by them
(40_pwm.md, PWM_SETCH; 41_motor_servo.md, common rules). -/
def Obligations.BadChannelIsSilent : Prop :=
  ∀ (s : State) (channel a b : Word), channel.toInt < 0 ∨ 15 < channel.toInt →
    exec (.pwmSetch channel a b) s = .next s ∧ exec (.servoPw channel a) s = .next s ∧ exec (.servoCs channel a) s = .next s ∧
    exec (.servoAng channel a) s = .next s ∧ exec (.servoWide channel a) s = .next s

/-- Lazy initialisation: on a driver not initialised, a channel write, a servo command or a motor command with at least one channel
in [0, 15] is `PWM_INIT` followed by that same command (40_pwm.md, lazy initialisation). -/
def Obligations.LazyInitialisation : Prop :=
  ∀ (s : State) (channel a b : Word), s.pwm.init = false → 0 ≤ channel.toInt → channel.toInt ≤ 15 →
    ∃ u, exec .pwmInit s = .next u ∧ u.pwm.init = true ∧
      exec (.pwmSetch channel a b) s = exec (.pwmSetch channel a b) u ∧
      exec (.servoPw channel a) s = exec (.servoPw channel a) u ∧
      exec (.servoCs channel a) s = exec (.servoCs channel a) u ∧
      exec (.servoAng channel a) s = exec (.servoAng channel a) u ∧
      exec (.servoWide channel a) s = exec (.servoWide channel a) u ∧
      exec (.motor channel a b) s = exec (.motor channel a b) u ∧
      exec (.motor a channel b) s = exec (.motor a channel b) u

/-! ## Motor and servos -/

/-- `MOTOR` on an initialised driver with both channels in [0, 15] writes two channel records: 0 to the undriven channel first, then
the absolute value of the clamped speed to the driven one (41_motor_servo.md, MOTOR; D12). -/
def Obligations.MotorWritesTwoRecords : Prop :=
  ∀ (s : State) (f r speed : Word) (v : Int), s.pwm.init = true → 1 ≤ s.pwm.levels →
    0 ≤ f.toInt → f.toInt ≤ 15 → 0 ≤ r.toInt → r.toInt ≤ 15 →
    v = max (-((s.pwm.levels : Int) - 1)) (min speed.toInt ((s.pwm.levels : Int) - 1)) →
    exec (.motor f r speed) s = .next { s with
      trace := s.trace ++
        (if 0 ≤ v then
          [.i2cWrite s.pwm.addr (spelledRecord s.params r.toInt 0 0), .i2cWrite s.pwm.addr (spelledRecord s.params f.toInt 0 v)]
        else
          [.i2cWrite s.pwm.addr (spelledRecord s.params f.toInt 0 0), .i2cWrite s.pwm.addr (spelledRecord s.params r.toInt 0 (-v))]) }

/-- A channel of `MOTOR` outside [0, 15] is dropped alone: the command is then the one `PWM_SETCH` of the other channel, and with both
outside it is a silent no-op that does not initialise the driver (41_motor_servo.md, MOTOR, corner case 3; D12). -/
def Obligations.MotorDropsBadChannelAlone : Prop :=
  ∀ (s : State) (f r speed : Word) (v : Int), 2 ≤ s.pwm.levels → s.pwm.levels ≤ 65536 →
    v = max (-((s.pwm.levels : Int) - 1)) (min speed.toInt ((s.pwm.levels : Int) - 1)) →
    ((r.toInt < 0 ∨ 15 < r.toInt) →
      exec (.motor f r speed) s = exec (.pwmSetch f 0 (BitVec.ofInt 32 (max v 0))) s) ∧
    ((f.toInt < 0 ∨ 15 < f.toInt) →
      exec (.motor f r speed) s = exec (.pwmSetch r 0 (BitVec.ofInt 32 (max (-v) 0))) s) ∧
    ((f.toInt < 0 ∨ 15 < f.toInt) → (r.toInt < 0 ∨ 15 < r.toInt) → exec (.motor f r speed) s = .next s)

/-- After `MOTOR` on two channels in [0, 15] whose register numbers differ, from any state, initialised or not, the driven channel's
last-written tick is the least of the speed's absolute value and L-1, and the other's is 0 (41_motor_servo.md, motor property; the
register numbers are D11's, and open parameters could make two of them equal). -/
def Obligations.MotorLastWrittenTicks : Prop :=
  ∀ (s : State) (f r : Fin 16) (fw rw speed : Word), fw.toInt = (f.val : Int) → rw.toInt = (r.val : Int) →
    channelReg s.params f ≠ channelReg s.params r → 2 ≤ s.pwm.levels → s.pwm.levels ≤ 65536 →
    ∃ t, exec (.motor fw rw speed) s = .next t ∧
      (lastWrittenTick t.params t.pwm.addr (if 0 ≤ speed.toInt then f else r) t.trace).map BitVec.toNat =
        some (min speed.toInt.natAbs (s.pwm.levels - 1)) ∧
      lastWrittenTick t.params t.pwm.addr (if 0 ≤ speed.toInt then r else f) t.trace = some 0

/-- No shoot-through: if at most one channel of a pair was last written a tick other than 0, that still holds at every instant of a
`MOTOR` on that pair, whatever the speed: in the lazy initialisation, between its two transactions and after them
(41_motor_servo.md, the no-shoot-through guarantee; D11, D12). -/
def Obligations.NoShootThrough : Prop :=
  ∀ (s t : State) (f r : Fin 16) (fw rw speed : Word), fw.toInt = (f.val : Int) → rw.toInt = (r.val : Int) →
    channelReg s.params f ≠ channelReg s.params r → 1 ≤ s.pwm.levels →
    atMostOneDriven s.params s.pwm.addr f r s.trace → exec (.motor fw rw speed) s = .next t →
    ∀ n, s.trace.length ≤ n → atMostOneDriven s.params s.pwm.addr f r (t.trace.take n)

/-- `SERVO_PW` on an initialised driver writes the one record whose tick is the pulse width in ticks, rounded half up, clamped to
[1, L-1]; in integers only (41_motor_servo.md, SERVO_PW; D13). -/
def Obligations.ServoPwWritesTick : Prop :=
  ∀ (s : State) (channel width : Word), s.pwm.init = true → 2 ≤ s.pwm.levels → 1 ≤ s.pwm.period →
    0 ≤ channel.toInt → channel.toInt ≤ 15 →
    exec (.servoPw channel width) s = .next { s with
      trace := s.trace ++ [.i2cWrite s.pwm.addr (spelledRecord s.params channel.toInt 0
        (max 1 (min ((2 * width.toInt * (s.pwm.levels : Int) + (s.pwm.period : Int)) / (2 * (s.pwm.period : Int)))
          ((s.pwm.levels : Int) - 1))))] }

/-- The tick conversion of a rational pulse width `num/den`, in integers only: one rounding, half up, then the clamp to [1, L-1]
(41_motor_servo.md, the tick conversion; D13). -/
def Obligations.TickConversionInIntegers : Prop :=
  ∀ (num den : Int) (levels period : Nat), 0 < den → 2 ≤ levels → 1 ≤ period →
    ticksOfPw ((num : Rat) / (den : Rat)) levels period =
      max 1 (min ((2 * num * (levels : Int) + den * (period : Int)) / (2 * den * (period : Int))) ((levels : Int) - 1))

/-- `SERVO_CS` on an initialised driver: the speed maps linearly, the pulse width is clamped, and one tick conversion follows
(41_motor_servo.md, SERVO_CS; D14, D15). -/
def Obligations.ServoCsWritesTick : Prop :=
  ∀ (s : State) (channel speed : Word) (q : Rat), s.pwm.init = true → s.params.Valid → 0 ≤ channel.toInt → channel.toInt ≤ 15 →
    q = s.params.csNeutralUs + (speed.toInt : Rat) * s.params.csDeflectUs / (s.params.csSpeedMax : Rat) →
    exec (.servoCs channel speed) s = .next { s with
      trace := s.trace ++ [.i2cWrite s.pwm.addr (spelledRecord s.params channel.toInt 0
        (ticksOfPw (max s.params.csMinUs (min q s.params.csMaxUs)) s.pwm.levels s.pwm.period))] }

/-- `SERVO_ANG` on an initialised driver: the angle is normalised and snapped, interpolated over 270 degrees, clamped, and converted
(41_motor_servo.md, SERVO_ANG; D14, D16). -/
def Obligations.ServoAngWritesTick : Prop :=
  ∀ (s : State) (channel degrees : Word) (n m : Int) (q : Rat), s.pwm.init = true → s.params.Valid →
    0 ≤ channel.toInt → channel.toInt ≤ 15 →
    n = (degrees.toInt + 45) % 360 → m = (if n ≤ 270 then n else if n < 315 then 270 else 0) →
    q = s.params.angPw0Us + (m : Rat) * (s.params.angPw270Us - s.params.angPw0Us) / 270 →
    exec (.servoAng channel degrees) s = .next { s with
      trace := s.trace ++ [.i2cWrite s.pwm.addr (spelledRecord s.params channel.toInt 0
        (ticksOfPw (max s.params.angMinUs (min q s.params.angMaxUs)) s.pwm.levels s.pwm.period))] }

/-- The snap table in terms of the input angle: -45 to 225 the angle itself, above 225 and below 270 as 225, 270 up to 315 as -45;
and a whole turn more or less changes nothing (41_motor_servo.md, the snap table; D16). -/
def Obligations.AngleSnapTable : Prop :=
  ∀ d k : Int,
    (-45 ≤ d → d ≤ 225 → angNorm (d + 360 * k) = d + 45) ∧
    (225 < d → d < 270 → angNorm (d + 360 * k) = 270) ∧
    (270 ≤ d → d < 315 → angNorm (d + 360 * k) = 0)

/-- `SERVO_WIDE` on an initialised driver: the angle is reduced to [0, 360), interpolated over 360 degrees, clamped, and converted
(41_motor_servo.md, SERVO_WIDE; D14, D16, D17). -/
def Obligations.ServoWideWritesTick : Prop :=
  ∀ (s : State) (channel degrees : Word) (n k : Int) (q : Rat), s.pwm.init = true → s.params.Valid →
    0 ≤ channel.toInt → channel.toInt ≤ 15 → 0 ≤ n → n < 360 → degrees.toInt = n + 360 * k →
    q = s.params.widePw0Us + (n : Rat) * (s.params.widePw360Us - s.params.widePw0Us) / 360 →
    exec (.servoWide channel degrees) s = .next { s with
      trace := s.trace ++ [.i2cWrite s.pwm.addr (spelledRecord s.params channel.toInt 0
        (ticksOfPw (max s.params.wideMinUs (min q s.params.wideMaxUs)) s.pwm.levels s.pwm.period))] }

/-! ## Pixel buffer -/

/-- `PIX_INIT` on a matrix not yet created, with a mapped pin: the clamped dimensions, a buffer of zeros, two `LedSend` of the whole
black frame, the flag (42_pixel.md, PIX_INIT; D18). -/
def Obligations.PixInitCreatesMatrix : Prop :=
  ∀ (s : State) (rows columns pin : Word), s.pix.init = false → 0 ≤ pin.toInt → pin.toInt < (s.params.nPins : Int) →
    ∃ t n, exec (.pixInit rows columns pin) s = .next t ∧
      (t.pix.rows : Int) = max 1 (min rows.toInt 255) ∧ (t.pix.cols : Int) = max 1 (min columns.toInt 255) ∧
      (t.pix.pin : Int) = pin.toInt ∧ t.pix.init = true ∧ (∀ a, t.pix.buf.read a = 0) ∧
      n = t.pix.rows * t.pix.cols * 3 ∧
      t = { s with
        pix := t.pix
        trace := s.trace ++ [.ledSend t.pix.pin (List.replicate n 0), .ledSend t.pix.pin (List.replicate n 0)] }

/-- A second `PIX_INIT`, or one with an unmapped pin, is a silent no-op (42_pixel.md, PIX_INIT; D18, D21). -/
def Obligations.PixInitOtherwiseSilent : Prop :=
  ∀ (s : State) (rows columns pin : Word),
    s.pix.init = true ∨ pin.toInt < 0 ∨ (s.params.nPins : Int) ≤ pin.toInt → exec (.pixInit rows columns pin) s = .next s

/-- `PIX_SET`: a silent no-op while the matrix is not initialised; on a created matrix it writes exactly one pixel, at the clamped
coordinates, as green, red, blue, each clamped to [0, 255]; every other byte is as before and no event is emitted. -/
def Obligations.PixSetWritesOnePixel : Prop :=
  ∀ (s : State) (y x r g b : Word),
    (s.pix.init = false → exec (.pixSet y x r g b) s = .next s) ∧
    (s.pix.init = true → 1 ≤ s.pix.rows → 1 ≤ s.pix.cols → s.pix.buf.wf →
      ∃ t, exec (.pixSet y x r g b) s = .next t ∧ t = { s with pix := { s.pix with buf := t.pix.buf } } ∧
        ∀ y' x' o : Nat, (y' : Int) = max 0 (min y.toInt ((s.pix.rows : Int) - 1)) →
          (x' : Int) = max 0 (min x.toInt ((s.pix.cols : Int) - 1)) → o = (y' * s.pix.cols + x') * 3 →
          o + 3 ≤ 3 * (s.pix.rows * s.pix.cols) ∧
          ((t.pix.buf.read o).toNat : Int) = max 0 (min g.toInt 255) ∧
          ((t.pix.buf.read (o + 1)).toNat : Int) = max 0 (min r.toInt 255) ∧
          ((t.pix.buf.read (o + 2)).toNat : Int) = max 0 (min b.toInt 255) ∧
          ∀ a, a < o ∨ o + 3 ≤ a → t.pix.buf.read a = s.pix.buf.read a)

/-- `PIX_FILL`: a silent no-op while the matrix is not initialised; on a created matrix the buffer becomes the clamped triple green,
red, blue repeated for every pixel, and nothing else changes. -/
def Obligations.PixFillWritesEveryPixel : Prop :=
  ∀ (s : State) (r g b : Word),
    (s.pix.init = false → exec (.pixFill r g b) s = .next s) ∧
    (s.pix.init = true → 1 ≤ s.pix.rows → 1 ≤ s.pix.cols → s.pix.buf.wf →
      ∃ t, exec (.pixFill r g b) s = .next t ∧ t = { s with pix := { s.pix with buf := t.pix.buf } } ∧
        (∀ i, i < s.pix.rows * s.pix.cols →
          ((t.pix.buf.read (3 * i)).toNat : Int) = max 0 (min g.toInt 255) ∧
          ((t.pix.buf.read (3 * i + 1)).toNat : Int) = max 0 (min r.toInt 255) ∧
          ((t.pix.buf.read (3 * i + 2)).toNat : Int) = max 0 (min b.toInt 255)) ∧
        ∀ a, 3 * (s.pix.rows * s.pix.cols) ≤ a → t.pix.buf.read a = s.pix.buf.read a)

/-- `PIX_SETS` on an initialised 8 by 8 matrix is the generic write at buffer row x' and buffer column y' (even x') or 7-y' (odd x'),
for the coordinates clamped to [0, 7], and it completes: the byte offset is (8x'+y')*3 or (8x'+7-y')*3. On any other matrix, or
before initialisation, it is a silent no-op (42_pixel.md, PIX_SETS; D19). -/
def Obligations.PixSetsIsSerpentine : Prop :=
  ∀ (s : State) (y x r g b : Word),
    (s.pix.init = false ∨ s.pix.rows ≠ 8 ∨ s.pix.cols ≠ 8 → exec (.pixSets y x r g b) s = .next s) ∧
    (s.pix.init = true → s.pix.rows = 8 → s.pix.cols = 8 →
      ∀ y' x' c : Nat, (y' : Int) = max 0 (min y.toInt 7) → (x' : Int) = max 0 (min x.toInt 7) →
        c = (if x' % 2 = 0 then y' else 7 - y') →
        exec (.pixSets y x r g b) s = exec (.pixSet (BitVec.ofNat 32 x') (BitVec.ofNat 32 c) r g b) s ∧
        exec (.pixSets y x r g b) s = .next { s with pix := { s.pix with
          buf := s.pix.buf.writeBytes ((8 * x' + c) * 3) (pixelBytes r.toInt g.toInt b.toInt) } })

/-- The full serpentine map: the pixel index of each logical row and column (42_pixel.md, the table; D19). -/
def Obligations.SerpentineTable : Prop :=
  [[0, 15, 16, 31, 32, 47, 48, 63], [1, 14, 17, 30, 33, 46, 49, 62], [2, 13, 18, 29, 34, 45, 50, 61],
   [3, 12, 19, 28, 35, 44, 51, 60], [4, 11, 20, 27, 36, 43, 52, 59], [5, 10, 21, 26, 37, 42, 53, 58],
   [6, 9, 22, 25, 38, 41, 54, 57], [7, 8, 23, 24, 39, 40, 55, 56]] =
  (List.range 8).map fun y => (List.range 8).map fun x => (serpentine (y : Int) (x : Int)).1 * 8 + (serpentine (y : Int) (x : Int)).2

/-- `PIX_REFRESH` on an initialised matrix emits one `LedSend` on `PIX.PIN` carrying every byte of the buffer, offset 0 first, and
writes no state; before initialisation it is a silent no-op (42_pixel.md, PIX_REFRESH; D20). -/
def Obligations.PixRefreshSendsWholeBuffer : Prop :=
  ∀ s : State,
    (s.pix.init = false → exec .pixRefresh s = .next s) ∧
    (s.pix.init = true →
      ∃ bytes : List Byte, bytes.length = s.pix.rows * s.pix.cols * 3 ∧ (∀ a b, bytes[a]? = some b → b = s.pix.buf.read a) ∧
        exec .pixRefresh s = .next { s with trace := s.trace ++ [.ledSend s.pix.pin bytes] })

/-- The document's example: red 10, green 20, blue 30 on a freshly created 1 by 1 buffer yields the bytes 20, 10, 30. -/
def Obligations.PixelByteOrderExample : Prop :=
  ∀ (s t : State) (pin : Word), s.pix.init = false → 0 ≤ pin.toInt → pin.toInt < (s.params.nPins : Int) →
    exec (.pixInit 1 1 pin) s = .next t →
    ∃ u, exec (.pixSet 0 0 10 20 30) t = .next u ∧ fbBytes u = [20, 10, 30]

/-! ## Ultrasonic ranger -/

/-- `USR_MEASURE` whose first attempt is answered: one attempt, the reading becomes the pin's and the unit's last known good, the
fallback flag is cleared, and `RES` is the scaled reading; the pull modes are 0 none, 1 pull-down, 2 pull-up (43_ultrasonic.md,
USR_MEASURE; D21, D22, D25, D26). -/
def Obligations.MeasureWithEcho : Prop :=
  ∀ (s : State) (pin mode mul dv : Word) (p : Nat) (m : PullMode) (w : PulseWidth),
    pin.toInt = (p : Int) → p < s.params.nPins →
    (mode.toInt = 0 ∧ m = .none) ∨ (mode.toInt = 1 ∧ m = .down) ∨ (mode.toInt = 2 ∧ m = .up) →
    w = pulseAnswer s → w ≠ 0 →
    exec (.usrMeasure pin mode mul dv) s = .next { s with
      usr := { hist := tableSet 0 s.usr.hist p w, fbUsed := tableSet false s.usr.fbUsed p false, lastPw := w, phase := .idle }
      res := BitVec.ofInt 32 ((w.val : Int) * max 0 (min mul.toInt 65535) / max 1 (min dv.toInt 65535))
      env := s.env.afterPulse
      trace := s.trace ++ attemptTrace p m w }

/-- `USR_MEASURE` whose first attempt times out and whose second is answered: two attempts with the 10 ms delay between them, and a
success in every respect, for each of the pull modes 0 none, 1 pull-down, 2 pull-up (43_ultrasonic.md, USR_MEASURE and its corner
case 2; D21, D22, D25, D26). -/
def Obligations.MeasureWithEchoOnRetry : Prop :=
  ∀ (s : State) (pin mode mul dv : Word) (p : Nat) (m : PullMode) (w : PulseWidth),
    pin.toInt = (p : Int) → p < s.params.nPins →
    (mode.toInt = 0 ∧ m = .none) ∨ (mode.toInt = 1 ∧ m = .down) ∨ (mode.toInt = 2 ∧ m = .up) →
    pulseAnswer s = 0 →
    w = pulseAnswer { s with env := s.env.afterPulse } → w ≠ 0 →
    exec (.usrMeasure pin mode mul dv) s = .next { s with
      usr := { hist := tableSet 0 s.usr.hist p w, fbUsed := tableSet false s.usr.fbUsed p false, lastPw := w, phase := .idle }
      res := BitVec.ofInt 32 ((w.val : Int) * max 0 (min mul.toInt 65535) / max 1 (min dv.toInt 65535))
      env := s.env.afterPulse.afterPulse
      trace := s.trace ++ (attemptTrace p m 0 ++ [.delayUs 10000] ++ attemptTrace p m w) }

/-- `USR_MEASURE` whose two attempts both time out: where the pin's fallback flag is clear `RES` is the scaled last known good reading
and the flag is set; where it is set `RES` is 0 and the flag is cleared; the history stays, for each of the pull modes 0 none,
1 pull-down, 2 pull-up (43_ultrasonic.md, USR_MEASURE; D21, D22, D23, D25, D26). -/
def Obligations.MeasureTimedOut : Prop :=
  ∀ (s : State) (pin mode mul dv : Word) (p : Nat) (m : PullMode),
    pin.toInt = (p : Int) → p < s.params.nPins →
    (mode.toInt = 0 ∧ m = .none) ∨ (mode.toInt = 1 ∧ m = .down) ∨ (mode.toInt = 2 ∧ m = .up) →
    pulseAnswer s = 0 →
    pulseAnswer { s with env := s.env.afterPulse } = 0 →
    exec (.usrMeasure pin mode mul dv) s = .next { s with
      usr := { s.usr with fbUsed := tableSet false s.usr.fbUsed p (!fbUsedAt s p), phase := .idle }
      res := if fbUsedAt s p then 0
        else BitVec.ofInt 32 (((histAt s p).val : Int) * max 0 (min mul.toInt 65535) / max 1 (min dv.toInt 65535))
      env := s.env.afterPulse.afterPulse
      trace := s.trace ++ (attemptTrace p m 0 ++ [.delayUs 10000] ++ attemptTrace p m 0) }

/-- An unmapped pin or a pull mode other than 0, 1, 2: `RES` becomes 0 and nothing else happens (43_ultrasonic.md, corner case 4; D21,
D22). -/
def Obligations.MeasureBadSelector : Prop :=
  ∀ (s : State) (pin mode mul dv : Word),
    pin.toInt < 0 ∨ (s.params.nPins : Int) ≤ pin.toInt ∨ mode.toInt < 0 ∨ 2 < mode.toInt →
    exec (.usrMeasure pin mode mul dv) s = .next { s with res := 0 }

/-- Whatever the operands, the state and the readings, `USR_MEASURE` completes and writes a number in [0, 1638375000] to `RES`
(43_ultrasonic.md, the conversion; D25, D31). -/
def Obligations.MeasuredDistanceInRange : Prop :=
  ∀ (s : State) (pin mode mul dv : Word),
    ∃ t, exec (.usrMeasure pin mode mul dv) s = .next t ∧ 0 ≤ t.res.toInt ∧ t.res.toInt ≤ 1638375000

/-- The fallback rule on a mapped pin: a timed-out first reading is retried once after the 10 ms delay; a success stores the reading as
the pin's last known good and clears the fallback flag; where both attempts time out the history stays, and the result is the scaled
last known good reading where the flag was clear and 0 where it was set; the flag after a call is 1 exactly when that call returned the
fallback; calls on other pins do not touch a pin's flag or history (43_ultrasonic.md, USR_MEASURE, the fallback rule and the
conversion; the mapped pins are D21's, the numbers of the pull modes D22's, the flag's clearing by a time-out that does not use the
fallback D23's, the clamped scale pair D25's, and that the retry configures the pull again D26's). -/
def Obligations.FallbackFlagAndHistory : Prop :=
  ∀ (s t : State) (pin mode mul dv : Word) (p : Nat) (m : PullMode) (first second : PulseWidth),
    tableWf 0 s.usr.hist → tableWf false s.usr.fbUsed →
    pin.toInt = (p : Int) → p < s.params.nPins →
    (mode.toInt = 0 ∧ m = .none) ∨ (mode.toInt = 1 ∧ m = .down) ∨ (mode.toInt = 2 ∧ m = .up) →
    first = pulseAnswer s → second = pulseAnswer { s with env := s.env.afterPulse } →
    exec (.usrMeasure pin mode mul dv) s = .next t →
    (first = 0 → t.trace = s.trace ++ (attemptTrace p m 0 ++ [.delayUs 10000] ++ attemptTrace p m second)) ∧
    (first ≠ 0 → histAt t p = first) ∧
    (first = 0 → second ≠ 0 → histAt t p = second) ∧
    (first = 0 → second = 0 → histAt t p = histAt s p ∧
      t.res = (if fbUsedAt s p then 0
        else BitVec.ofInt 32 (((histAt s p).val : Int) * max 0 (min mul.toInt 65535) / max 1 (min dv.toInt 65535)))) ∧
    (fbUsedAt t p = true ↔ first = 0 ∧ second = 0 ∧ fbUsedAt s p = false) ∧
    ∀ q, q ≠ p → histAt t q = histAt s q ∧ fbUsedAt t q = fbUsedAt s q

/-- The alternation property: on a pin with history h and the flag clear, whose sensor does not answer during the next n calls, those
calls return the scaled h, 0, the scaled h, 0 and so on, each making two attempts with the 10 ms delay between them and leaving the
history at h (43_ultrasonic.md, USR_MEASURE, the alternation property and the conversion; the mapped pins are D21's, the numbers of
the pull modes D22's, the flag's clearing by a time-out that does not use the fallback D23's, the clamped scale pair D25's, and that
both attempts configure the pull D26's). -/
def Obligations.FallbackAlternates : Prop :=
  ∀ (n : Nat) (s : State) (pin mode mul dv : Word) (p : Nat) (m : PullMode) (h : PulseWidth) (mul' dv' : Int),
    tableWf false s.usr.fbUsed → pin.toInt = (p : Int) → p < s.params.nPins →
    (mode.toInt = 0 ∧ m = .none) ∨ (mode.toInt = 1 ∧ m = .down) ∨ (mode.toInt = 2 ∧ m = .up) →
    mul' = max 0 (min mul.toInt 65535) → dv' = max 1 (min dv.toInt 65535) →
    NoAnswerFor s (2 * n) → histAt s p = h → fbUsedAt s p = false →
    ∃ run : Nat → State, run 0 = s ∧ ∀ k, k < n →
      exec (.usrMeasure pin mode mul dv) (run k) = .next (run (k + 1)) ∧
      (run (k + 1)).res.toInt = (if k % 2 = 0 then (h.val : Int) * mul' / dv' else 0) ∧
      histAt (run (k + 1)) p = h ∧
      (run (k + 1)).trace = (run k).trace ++ (attemptTrace p m 0 ++ [.delayUs 10000] ++ attemptTrace p m 0)

/-! ## MP3 framer -/

/-- `MP3_INIT` with two mapped pins on a link not initialised records them, emits one `UartCfg` at 9600 and sets the flag; on an
initialised link, or with an unmapped pin, it is a silent no-op (44_mp3.md, MP3_INIT; D21, D27). -/
def Obligations.Mp3InitOnce : Prop :=
  ∀ (s : State) (tx rx : Word) (a b : Nat),
    (s.mp3.init = false → tx.toInt = (a : Int) → rx.toInt = (b : Int) → a < s.params.nPins → b < s.params.nPins →
      exec (.mp3Init tx rx) s = .next { s with
        mp3 := { init := true, tx := a, rx := b }
        trace := s.trace ++ [.uartCfg a b 9600] }) ∧
    (s.mp3.init = true ∨ tx.toInt < 0 ∨ (s.params.nPins : Int) ≤ tx.toInt ∨ rx.toInt < 0 ∨ (s.params.nPins : Int) ≤ rx.toInt →
      exec (.mp3Init tx rx) s = .next s)

/-- The three payload commands on an initialised link transmit one frame with the command byte and the payload, where the payload has
at most 250 bytes (44_mp3.md, MP3_SEND, MP3_SENDSTR, MP3_PLAYNAME; D28, D29, D30). -/
def Obligations.PayloadCommandsTransmitFrame : Prop :=
  ∀ (s : State) (command : Word) (payload : List Byte), s.mp3.init = true → payload.length ≤ 250 →
    exec (.mp3Send command payload) s = .next { s with
      trace := s.trace ++ [.uartTx (spelledFrame command.toNat payload)] } ∧
    exec (.mp3Sendstr command payload) s = .next { s with
      trace := s.trace ++ [.uartTx (spelledFrame command.toNat payload)] } ∧
    exec (.mp3Playname payload) s = .next { s with
      trace := s.trace ++ [.uartTx (spelledFrame s.params.mp3CmdPlayname.toNat payload)] }

/-- Sending fails without a signal: no transmission while the module has not been initialized, for all nine sending commands, and none
where the payload exceeds 250 bytes. -/
def Obligations.SendingFailsSilently : Prop :=
  ∀ (s : State) (command : Word) (payload : List Byte),
    (s.mp3.init = false ∨ 250 < payload.length →
      exec (.mp3Send command payload) s = .next s ∧ exec (.mp3Sendstr command payload) s = .next s ∧
      exec (.mp3Playname payload) s = .next s) ∧
    (s.mp3.init = false →
      exec .mp3Play s = .next s ∧ exec .mp3Stop s = .next s ∧ exec .mp3Next s = .next s ∧ exec .mp3Prev s = .next s ∧
      exec (.mp3Vol command) s = .next s ∧ exec (.mp3Playnum command) s = .next s)

/-- Play, stop, next and prev on an initialised link transmit the 5-byte frame of their command byte (44_mp3.md, high-level operations;
the command bytes are open parameters, D29). -/
def Obligations.PlainCommandsTransmitFrame : Prop :=
  ∀ s : State, s.mp3.init = true →
    exec .mp3Play s = .next { s with trace := s.trace ++
      [.uartTx [0x7E, 3, s.params.mp3CmdPlay, 0x81 + s.params.mp3CmdPlay, 0xEF]] } ∧
    exec .mp3Stop s = .next { s with trace := s.trace ++
      [.uartTx [0x7E, 3, s.params.mp3CmdStop, 0x81 + s.params.mp3CmdStop, 0xEF]] } ∧
    exec .mp3Next s = .next { s with trace := s.trace ++
      [.uartTx [0x7E, 3, s.params.mp3CmdNext, 0x81 + s.params.mp3CmdNext, 0xEF]] } ∧
    exec .mp3Prev s = .next { s with trace := s.trace ++
      [.uartTx [0x7E, 3, s.params.mp3CmdPrev, 0x81 + s.params.mp3CmdPrev, 0xEF]] }

/-- Volume and file number on an initialised link transmit one payload byte, the operand clamped to [0, 31] and to [1, 255]
(44_mp3.md, MP3_VOL and MP3_PLAYNUM; D29). -/
def Obligations.NumberCommandsTransmitFrame : Prop :=
  ∀ (s : State) (x : Word) (v n : Nat), s.mp3.init = true →
    (v : Int) = max 0 (min x.toInt 31) → (n : Int) = max 1 (min x.toInt 255) →
    exec (.mp3Vol x) s = .next { s with trace := s.trace ++
      [.uartTx (spelledFrame s.params.mp3CmdVol.toNat [BitVec.ofNat 8 v])] } ∧
    exec (.mp3Playnum x) s = .next { s with trace := s.trace ++
      [.uartTx (spelledFrame s.params.mp3CmdPlaynum.toNat [BitVec.ofNat 8 n])] }

/-- The seven high-level operations are each exactly one `MP3_SEND` or `MP3_SENDSTR` (30_encoding.md, pseudo-operations; D29). -/
def Obligations.HighLevelCommandsAreSends : Prop :=
  ∀ (s : State) (x : Word) (name : List Byte) (v n : Nat),
    (v : Int) = max 0 (min x.toInt 31) → (n : Int) = max 1 (min x.toInt 255) →
    exec .mp3Play s = exec (.mp3Send (s.params.mp3CmdPlay.setWidth 32) []) s ∧
    exec .mp3Stop s = exec (.mp3Send (s.params.mp3CmdStop.setWidth 32) []) s ∧
    exec .mp3Next s = exec (.mp3Send (s.params.mp3CmdNext.setWidth 32) []) s ∧
    exec .mp3Prev s = exec (.mp3Send (s.params.mp3CmdPrev.setWidth 32) []) s ∧
    exec (.mp3Vol x) s = exec (.mp3Send (s.params.mp3CmdVol.setWidth 32) [BitVec.ofNat 8 v]) s ∧
    exec (.mp3Playnum x) s = exec (.mp3Send (s.params.mp3CmdPlaynum.setWidth 32) [BitVec.ofNat 8 n]) s ∧
    exec (.mp3Playname name) s = exec (.mp3Sendstr (s.params.mp3CmdPlayname.setWidth 32) name) s

/-- The frame of a command byte and a payload of at most 250 bytes: its length, its length byte (in [3, 253]), its checksum, which is
the sum of every byte before it modulo 256, the start byte included and the end byte not. -/
def Obligations.FrameLayout : Prop :=
  ∀ (c : Byte) (p : List Byte), p.length ≤ 250 →
    ∃ l k : Byte, frame c p = [0x7E, l, c] ++ p ++ [k, 0xEF] ∧ (frame c p).length = p.length + 5 ∧
      l.toNat = p.length + 3 ∧ 3 ≤ l.toNat ∧ l.toNat ≤ 253 ∧
      k.toNat = (0x7E + l.toNat + c.toNat + (p.map BitVec.toNat).sum) % 256

/-- The document's checksum example: the command 0xAA with an empty payload on an initialised link transmits 7E 03 AA 2B EF. -/
def Obligations.ChecksumExample : Prop :=
  ∀ s : State, s.mp3.init = true →
    exec (.mp3Send 0xAA []) s = .next { s with trace := s.trace ++ [.uartTx [0x7E, 0x03, 0xAA, 0x2B, 0xEF]] }

/-! ## The whole machine -/

/-- After reset every field holds the value the table of 70_reset_and_hazards.md section 1 gives it (D6, D18, D23, D27) and the output
trace is empty; nothing is said of `RES`, which is unspecified. -/
def Obligations.ResetValues : Prop :=
  State.reset.pwm = { addr := 0x40, levels := 4096, period := 20000, init := false } ∧
  State.reset.pix = { rows := 0, cols := 0, pin := 0, init := false, buf := [] } ∧ fbSize State.reset = 0 ∧
  (∀ p, histAt State.reset p = 0 ∧ fbUsedAt State.reset p = false) ∧ State.reset.usr.lastPw = 0 ∧ State.reset.usr.phase = .idle ∧
  State.reset.mp3 = { init := false, tx := 0, rx := 0 } ∧ State.reset.trace = []

/-- Reset meets the invariant and the discipline of the wires (10_state.md, the table of fields; 70_reset_and_hazards.md section 1; the
open parameters of the reset state are entry 3's). -/
def Obligations.ResetMeetsInvariant : Prop := State.reset.Inv ∧ State.reset.WiresLawful

/-- Every step keeps the invariant: ranges, canonical tables, the buffer's bounds, the phase (10_state.md, the table of fields;
20_memory.md sections 1 and 3). -/
def Obligations.StepKeepsInvariant : Prop := ∀ s t : State, s.Inv → step s = .next t → t.Inv

/-- The block raises no exception: in every state, whatever bytes stand at the port, the step answers a next state, and so does every
command, well formed or not, with any operands and any payload; what it emits is a (possibly empty) sequence of events at the end of
the trace. -/
def Obligations.EveryCommandHasNextState : Prop :=
  ∀ s : State,
    (∃ t events, step s = .next t ∧ t.trace = s.trace ++ events) ∧
    ∀ i : Instr, ∃ t events, exec i s = .next t ∧ t.trace = s.trace ++ events

/-- Every step keeps the discipline of the wires: I2C only to `PWM.ADDR` and only of an initialised driver, the mode register the only
one read, delays of the four nominal lengths, ranging on mapped pins bounded at 25000, the LED wire carrying whole buffers on `PIX.PIN`, the UART redirected
to the recorded pins at 9600 and carrying whole frames (00_scope.md section 4, events; 20_memory.md; C16). -/
def Obligations.StepKeepsWiresLawful : Prop := ∀ s t : State, s.WiresLawful → step s = .next t → t.WiresLawful

/-- No initialisation flag is ever cleared, by any step, and what it guards is fixed: the PWM configuration, the matrix's dimensions
and pin, the link's pins; and no step writes an open parameter (10_state.md sections 2 to 5; D18, D27, D37; entry 3). -/
def Obligations.FlagsAreWriteOnce : Prop :=
  ∀ s t : State, step s = .next t →
    (s.pwm.init = true → t.pwm = s.pwm) ∧
    (s.pix.init = true → t.pix = { s.pix with buf := t.pix.buf }) ∧
    (s.mp3.init = true → t.mp3 = s.mp3) ∧
    t.params = s.params

/-- Events are only ever added at the end of the trace, and a step consumes from the front of the port: nothing already emitted is
reordered, merged or dropped (20_memory.md section 4; D32). -/
def Obligations.TraceOnlyGrows : Prop :=
  ∀ s t : State, step s = .next t → (∃ events, t.trace = s.trace ++ events) ∧ ∃ taken, s.port = taken ++ t.port

/-- `RES` is written only by `USR_MEASURE`: every other operation leaves it unchanged (10_state.md, result register; D31). -/
def Obligations.OnlyMeasureWritesRes : Prop :=
  ∀ (i : Instr) (s t : State), (∀ pin mode mul dv, i ≠ .usrMeasure pin mode mul dv) → exec i s = .next t → t.res = s.res

/-- FRAME of the PWM, motor and servo commands: they change the PWM unit, the draws of register reads and the trace only, leaving every
byte of the framebuffer, the per-pin tables, the MP3 unit, `RES`, the parameters and the port; all but `PWM_CFG` also leave the
configuration (10_state.md, the table of writers). -/
def Obligations.PwmCommandsFrame : Prop :=
  ∀ (s t : State) (a b c : Word) (i : Instr),
    i ∈ [.pwmCfg a b c, .pwmInit, .pwmSetch a b c, .motor a b c, .servoPw a b, .servoCs a b, .servoAng a b, .servoWide a b] →
    exec i s = .next t →
    t.pix = s.pix ∧ (∀ o, t.pix.buf.read o = s.pix.buf.read o) ∧ t.usr = s.usr ∧ t.mp3 = s.mp3 ∧ t.res = s.res ∧
    t.params = s.params ∧ t.port = s.port ∧ t.env.pulses = s.env.pulses ∧
    (i ≠ .pwmCfg a b c → t.pwm = { s.pwm with init := t.pwm.init })

/-- FRAME of the pixel commands: they change the pixel unit and the trace only; every byte outside the three that `PIX_SET` or
`PIX_SETS` stores to, at the offset their meaning computes, reads as before; `PIX_FILL` stores inside the buffer only; `PIX_REFRESH`
stores nothing; only `PIX_INIT` and `PIX_REFRESH` emit (10_state.md, the table of writers; 20_memory.md section 1). -/
def Obligations.PixelCommandsFrame : Prop :=
  ∀ (s t : State) (y x r g b : Word) (i : Instr), s.pix.buf.wf →
    i ∈ [.pixInit y x r, .pixSet y x r g b, .pixFill r g b, .pixSets y x r g b, .pixRefresh] → exec i s = .next t →
    t.pwm = s.pwm ∧ t.usr = s.usr ∧ t.mp3 = s.mp3 ∧ t.res = s.res ∧ t.params = s.params ∧ t.port = s.port ∧ t.env = s.env ∧
    (i = .pixSet y x r g b → t.trace = s.trace ∧ t.pix = { s.pix with buf := t.pix.buf } ∧
      ∀ o : Nat, (o : Int) = pixelOffset s y.toInt x.toInt → ∀ a, a < o ∨ o + 3 ≤ a → t.pix.buf.read a = s.pix.buf.read a) ∧
    (i = .pixSets y x r g b → t.trace = s.trace ∧ t.pix = { s.pix with buf := t.pix.buf } ∧
      ∀ o : Nat, (o : Int) = pixelOffset s (serpentine y.toInt x.toInt).1 (serpentine y.toInt x.toInt).2 →
        ∀ a, a < o ∨ o + 3 ≤ a → t.pix.buf.read a = s.pix.buf.read a) ∧
    (i = .pixFill r g b → t.trace = s.trace ∧ t.pix = { s.pix with buf := t.pix.buf } ∧
      ∀ a, fbSize s ≤ a → t.pix.buf.read a = s.pix.buf.read a) ∧
    (i = .pixRefresh → t.pix = s.pix)

/-- FRAME of `USR_MEASURE`: it changes the ultrasonic unit, `RES`, the draws of the sensor and the trace only, leaving every byte of
the framebuffer (10_state.md, the table of writers). -/
def Obligations.MeasureFrame : Prop :=
  ∀ (s t : State) (pin mode mul dv : Word), exec (.usrMeasure pin mode mul dv) s = .next t →
    t.pwm = s.pwm ∧ t.pix = s.pix ∧ (∀ o, t.pix.buf.read o = s.pix.buf.read o) ∧ t.mp3 = s.mp3 ∧ t.params = s.params ∧
    t.port = s.port ∧ t.env.reads = s.env.reads ∧ (s.usr.phase = .idle → t.usr.phase = .idle)

/-- FRAME of the MP3 commands: they change the trace, and `MP3_INIT` the MP3 unit, and nothing else, leaving every byte of the
framebuffer (10_state.md, the table of writers). -/
def Obligations.Mp3CommandsFrame : Prop :=
  ∀ (s t : State) (a b : Word) (p : List Byte) (i : Instr),
    i ∈ [.mp3Init a b, .mp3Send a p, .mp3Sendstr a p, .mp3Play, .mp3Stop, .mp3Next, .mp3Prev, .mp3Vol a, .mp3Playnum a,
      .mp3Playname p] →
    exec i s = .next t →
    t = { s with mp3 := t.mp3, trace := t.trace } ∧ (∀ o, t.pix.buf.read o = s.pix.buf.read o) ∧
    (i ≠ .mp3Init a b → t.mp3 = s.mp3)

/-- Units are independent: what a pixel command does to the pixel unit depends on that unit and the parameters alone
(70_reset_and_hazards.md section 2: the order between units is free). -/
def Obligations.PixelUnitIndependent : Prop :=
  ∀ (s s' t : State) (y x r g b : Word) (i : Instr),
    i ∈ [.pixInit y x r, .pixSet y x r g b, .pixFill r g b, .pixSets y x r g b, .pixRefresh] →
    s'.pix = s.pix → s'.params = s.params → exec i s = .next t →
    ∃ t' events, exec i s' = .next t' ∧ t'.pix = t.pix ∧ t.trace = s.trace ++ events ∧ t'.trace = s'.trace ++ events

/-- No shoot-through at any step: for two channels whose register numbers differ, if at most one was last written a tick other than 0,
and the step's command, where it has one, is `MOTOR` on this pair in this order or writes no record to either register, then that still
holds at every instant of the step, in the trace up to any of its events, whatever the command and whatever else it does. Where the
wires are lawful it then holds again for the configuration after the step (`PWM_CFG` may change the address of a driver that has
written nothing yet), so it holds along every run that keeps the discipline (41_motor_servo.md, the no-shoot-through guarantee;
70_reset_and_hazards.md section 3, motor pair discipline; D11, D12). -/
def Obligations.NoShootThroughEveryStep : Prop :=
  ∀ (s t : State) (f r : Fin 16), channelReg s.params f ≠ channelReg s.params r →
    (∀ i rest, decode s.port = .command i rest → PairDiscipline s.params f r i) →
    atMostOneDriven s.params s.pwm.addr f r s.trace → step s = .next t →
    (∀ n, s.trace.length ≤ n → atMostOneDriven s.params s.pwm.addr f r (t.trace.take n)) ∧
    (s.WiresLawful → atMostOneDriven t.params t.pwm.addr f r t.trace)
end

