-- ==== Sys2Proof/Laws/Decode.lean ====
section
/-!
SUPPORT. Sys2Proof/Laws/Decode.lean: the laws of the command word's fields: each field read back from its bytes, and the split of a
payload from what follows it.
-/

namespace Sys2Proof

theorem splitExactly_append (p rest : List Byte) : splitExactly p.length (p ++ rest) = some (p, rest) := by
  induction p with
  | nil => rfl
  | cons b p ih => simp only [List.length_cons, List.cons_append, splitExactly, ih]

theorem splitExactly_eq_some {n : Nat} {bs p rest : List Byte} :
    splitExactly n bs = some (p, rest) ↔ bs = p ++ rest ∧ p.length = n := by
  constructor
  · intro h
    induction n generalizing bs p with
    | zero => simp_all [splitExactly]
    | succ n ih =>
      cases bs with
      | nil => simp [splitExactly] at h
      | cons b bs =>
        simp only [splitExactly] at h
        split at h
        · next front r hs =>
          obtain ⟨rfl, rfl⟩ := Prod.mk.inj (Option.some.inj h)
          obtain ⟨rfl, rfl⟩ := ih hs
          exact ⟨rfl, rfl⟩
        · simp at h
  · rintro ⟨rfl, rfl⟩
    exact splitExactly_append p rest

theorem splitExactly_eq_none {n : Nat} {bs : List Byte} : splitExactly n bs = none ↔ bs.length < n := by
  constructor
  · intro h
    by_contra hn
    have h' := (splitExactly_eq_some (n := n) (bs := bs) (p := bs.take n) (rest := bs.drop n)).2
      ⟨(List.take_append_drop n bs).symm, by simp; omega⟩
    rw [h] at h'
    exact absurd h' (by simp)
  · intro h
    rcases hs : splitExactly n bs with _ | ⟨p, rest⟩
    · rfl
    · obtain ⟨rfl, rfl⟩ := splitExactly_eq_some.1 hs
      simp at h

theorem le16_extract (v : BitVec 16) : le16 (v.extractLsb' 0 8) (v.extractLsb' 8 8) = v := by
  unfold le16
  ext i hi
  simp only [BitVec.getElem_append, BitVec.getElem_extractLsb']
  split
  · rw [Nat.zero_add, BitVec.getLsbD_eq_getElem]
  · rw [show 8 + (i - 8) = i by omega, BitVec.getLsbD_eq_getElem]

theorem le32_extract (v : Word) :
    le32 (v.extractLsb' 0 8) (v.extractLsb' 8 8) (v.extractLsb' 16 8) (v.extractLsb' 24 8) = v := by
  unfold le32
  ext i hi
  simp only [BitVec.getElem_append, BitVec.getElem_extractLsb']
  split_ifs
  · rw [Nat.zero_add, BitVec.getLsbD_eq_getElem]
  · rw [show 8 + (i - 8) = i by omega, BitVec.getLsbD_eq_getElem]
  · rw [show 16 + (i - (8 + 8)) = i by omega, BitVec.getLsbD_eq_getElem]
  · rw [show 24 + (i - (8 + (8 + 8))) = i by omega, BitVec.getLsbD_eq_getElem]

/-- A header whose `plen` is its payload's length is read back from its bytes, whatever follows. -/
theorem parse_bytes {h : Header} (hl : h.plen.toNat = h.payload.length) (rest : List Byte) :
    parse (h.bytes ++ rest) = some (h, rest) := by
  simp only [Header.bytes, le16Bytes, le32Bytes, List.cons_append, List.nil_append, parse, le16_extract, le32_extract,
    hl, splitExactly_append]

theorem mkHeader_plen {op : Byte} {a0 a1 a2 a3 a4 : Word} {p : List Byte} (h : p.length ≤ 65535) :
    (mkHeader op a0 a1 a2 a3 a4 p).plen.toNat = (mkHeader op a0 a1 a2 a3 a4 p).payload.length := by
  simp only [mkHeader, BitVec.toNat_ofNat]
  omega

/-- The bytes of a header whose `plen` is its payload's length decode to the command the header names. -/
theorem decode_bytes_of_some {h : Header} (hl : h.plen.toNat = h.payload.length) {i : Instr} (hi : h.instr = some i)
    (rest : List Byte) : decode (h.bytes ++ rest) = .command i rest := by
  simp only [decode, parse_bytes hl, hi]

/-- Where the header names none they decode to its reserved opcode. -/
theorem decode_bytes_of_none {h : Header} (hl : h.plen.toNat = h.payload.length) (hi : h.instr = none) (rest : List Byte) :
    decode (h.bytes ++ rest) = .reservedOpcode h.op rest := by
  simp only [decode, parse_bytes hl, hi]

theorem headerOf_plen {i : Instr} (h : i.WellFormed) : (headerOf i).plen.toNat = (headerOf i).payload.length := by
  cases i <;> first | rfl | exact mkHeader_plen h

/-- A header with a payload that fits names a well-formed command, if any. -/
theorem Header.instr_wellFormed {h : Header} {i : Instr} (hp : h.payload.length ≤ 65535) (e : h.instr = some i) :
    i.WellFormed := by
  unfold Header.instr at e
  split at e <;> simp at e <;> subst e <;> first | exact hp | simp [Instr.WellFormed, Instr.payload]

/-- The 16-bit field as a number: low byte first (R70). -/
theorem le16_toNat (a b : Byte) : (le16 a b).toNat = a.toNat + 256 * b.toNat := by
  have ha := a.isLt
  simp only [le16, BitVec.toNat_append]
  rw [← Nat.shiftLeft_add_eq_or_of_lt ha, Nat.shiftLeft_eq]
  omega

theorem parse_short {bs : List Byte} (h : bs.length < 23) : parse bs = none := by
  unfold parse
  split
  · simp at h; omega
  · rfl

/-- The bytes of a 16-bit field are those it was read from. -/
theorem le16Bytes_le16 (a b : Byte) : le16Bytes (le16 a b) = [a, b] := by
  have ha := a.isLt
  have hb := b.isLt
  unfold le16Bytes
  congr 1
  · apply BitVec.eq_of_toNat_eq
    simp only [BitVec.extractLsb'_toNat, le16_toNat, Nat.shiftRight_eq_div_pow]; omega
  · congr 1
    apply BitVec.eq_of_toNat_eq
    simp only [BitVec.extractLsb'_toNat, le16_toNat, Nat.shiftRight_eq_div_pow]; omega

/-- The 32-bit slot as a number: low byte first (R70). -/
theorem le32_toNat (a b c d : Byte) : (le32 a b c d).toNat = a.toNat + 256 * b.toNat + 65536 * c.toNat + 16777216 * d.toNat := by
  have ha := a.isLt
  have hb := b.isLt
  have hc := c.isLt
  have e1 : (b ++ a).toNat = a.toNat + 256 * b.toNat := le16_toNat a b
  have e2 : (c ++ (b ++ a)).toNat = c.toNat * 65536 + (b ++ a).toNat := by
    rw [BitVec.toNat_append, ← Nat.shiftLeft_add_eq_or_of_lt (by rw [e1]; omega), Nat.shiftLeft_eq]
  unfold le32
  rw [BitVec.toNat_append, ← Nat.shiftLeft_add_eq_or_of_lt (by rw [e2, e1]; omega), Nat.shiftLeft_eq, e2, e1]
  omega

/-- The bytes of a 32-bit slot are those it was read from. -/
theorem le32Bytes_le32 (a b c d : Byte) : le32Bytes (le32 a b c d) = [a, b, c, d] := by
  have ha := a.isLt
  have hb := b.isLt
  have hc := c.isLt
  have hd := d.isLt
  unfold le32Bytes
  congr 1
  · apply BitVec.eq_of_toNat_eq
    simp only [BitVec.extractLsb'_toNat, le32_toNat, Nat.shiftRight_eq_div_pow]; omega
  congr 1
  · apply BitVec.eq_of_toNat_eq
    simp only [BitVec.extractLsb'_toNat, le32_toNat, Nat.shiftRight_eq_div_pow]; omega
  congr 1
  · apply BitVec.eq_of_toNat_eq
    simp only [BitVec.extractLsb'_toNat, le32_toNat, Nat.shiftRight_eq_div_pow]; omega
  congr 1
  · apply BitVec.eq_of_toNat_eq
    simp only [BitVec.extractLsb'_toNat, le32_toNat, Nat.shiftRight_eq_div_pow]; omega

/-- What the decoder reads as a whole command word is that word: no byte is dropped or moved. -/
theorem parse_eq_some {bs : List Byte} {h : Header} {rest : List Byte} (e : parse bs = some (h, rest)) :
    bs = h.bytes ++ rest ∧ h.plen.toNat = h.payload.length := by
  unfold parse at e
  split at e
  · split at e
    · next p r hs =>
      obtain ⟨rfl, rfl⟩ := Prod.mk.inj (Option.some.inj e)
      obtain ⟨rfl, hp⟩ := splitExactly_eq_some.1 hs
      exact ⟨by simp [Header.bytes, le16Bytes_le16, le32Bytes_le32], hp.symm⟩
    · simp at e
  · simp at e

/-- Where the decoder finds a command, the bytes are that command's word and what follows. -/
theorem decode_command {bs : List Byte} {i : Instr} {rest : List Byte} (e : decode bs = .command i rest) :
    ∃ h : Header, bs = h.bytes ++ rest ∧ h.plen.toNat = h.payload.length ∧ h.instr = some i := by
  unfold decode at e
  split at e
  · simp at e
  · next h r hp =>
    split at e
    · next j hj =>
      obtain ⟨rfl, rfl⟩ := Decoded.command.inj e
      exact ⟨h, (parse_eq_some hp).1, (parse_eq_some hp).2, hj⟩
    · simp at e

/-- Where the decoder finds a reserved opcode, the bytes are that word and what follows. -/
theorem decode_reservedOpcode {bs : List Byte} {op : Byte} {rest : List Byte} (e : decode bs = .reservedOpcode op rest) :
    ∃ h : Header, bs = h.bytes ++ rest ∧ h.plen.toNat = h.payload.length ∧ h.instr = none ∧ h.op = op := by
  unfold decode at e
  split at e
  · simp at e
  · next h r hp =>
    split at e
    · simp at e
    · next hn =>
      obtain ⟨rfl, rfl⟩ := Decoded.reservedOpcode.inj e
      exact ⟨h, (parse_eq_some hp).1, (parse_eq_some hp).2, hn, rfl⟩

theorem Header.bytes_length (h : Header) : h.bytes.length = 23 + h.payload.length := by
  simp [Header.bytes, le16Bytes, le32Bytes]; omega

end Sys2Proof
end

