-- ==== Sys2Proof/Laws/Memory.lean ====
section
/-!
SUPPORT. Sys2Proof/Laws/Memory.lean: the laws of the sparse tables: read after write, and that a write keeps the canonical form.
-/

namespace Sys2Proof.Machine

section Table

variable {α : Type} [DecidableEq α] {d : α}

/-- The four cases of a write, by where the key falls. -/
theorem tableSet_cons (c : Nat × α) (t : List (Nat × α)) (k : Nat) (v : α) :
    (k < c.1 ∧ v = d ∧ tableSet d (c :: t) k v = c :: t) ∨
    (k < c.1 ∧ v ≠ d ∧ tableSet d (c :: t) k v = (k, v) :: c :: t) ∨
    (k = c.1 ∧ v = d ∧ tableSet d (c :: t) k v = t) ∨
    (k = c.1 ∧ v ≠ d ∧ tableSet d (c :: t) k v = (k, v) :: t) ∨
    (c.1 < k ∧ tableSet d (c :: t) k v = c :: tableSet d t k v) := by
  rcases Nat.lt_trichotomy k c.1 with h | h | h <;> by_cases hv : v = d
  · exact .inl ⟨h, hv, by simp [tableSet, h, hv]⟩
  · exact .inr (.inl ⟨h, hv, by simp [tableSet, h, hv]⟩)
  · exact .inr (.inr (.inl ⟨h, hv, by simp [tableSet, h, hv]⟩))
  · exact .inr (.inr (.inr (.inl ⟨h, hv, by simp [tableSet, h, hv]⟩)))
  all_goals
    exact .inr (.inr (.inr (.inr ⟨h, by
      rw [tableSet, if_neg (Nat.not_lt_of_lt h), if_neg (Nat.ne_of_gt h)]⟩)))

omit [DecidableEq α] in
/-- An entry below every listed key reads as the default. -/
theorem tableGet_below {t : List (Nat × α)} {k : Nat} (h : ∀ c ∈ t, k < c.1) : tableGet d t k = d := by
  induction t with
  | nil => rfl
  | cons c t ih =>
    have hc := h c (by simp)
    simp only [tableGet, if_neg (Nat.ne_of_gt hc)]
    exact ih fun c' hc' => h c' (by simp [hc'])

/-- Reading the key just written gives the value written; reading another gives what was there. -/
theorem tableGet_tableSet {t : List (Nat × α)} (ht : t.Pairwise fun a b => a.1 < b.1) (k : Nat) (v : α) (j : Nat) :
    tableGet d (tableSet d t k v) j = if j = k then v else tableGet d t j := by
  induction t with
  | nil =>
    by_cases hv : v = d <;> simp [tableSet, tableGet, hv, eq_comm]
  | cons c t ih =>
    obtain ⟨hhead, htail⟩ := List.pairwise_cons.1 ht
    rcases tableSet_cons (d := d) c t k v with ⟨h, hv, e⟩ | ⟨h, hv, e⟩ | ⟨h, hv, e⟩ | ⟨h, hv, e⟩ | ⟨h, e⟩ <;> rw [e]
    · split
      · next hj =>
        subst hj hv
        refine tableGet_below fun c' hc' => ?_
        rcases List.mem_cons.1 hc' with rfl | hc'
        · exact h
        · exact Nat.lt_trans h (hhead c' hc')
      · rfl
    · simp only [tableGet, eq_comm (a := k)]
    · subst h hv
      simp only [tableGet, eq_comm (a := c.1)]
      split
      · next hj => subst hj; exact tableGet_below hhead
      · rfl
    · subst h
      simp only [tableGet, eq_comm (a := c.1)]
      split <;> rfl
    · simp only [tableGet, ih htail]
      split
      · next hj => rw [if_neg (by omega)]
      · rfl

/-- Every entry after a write is the one written or was there before. -/
theorem mem_tableSet {t : List (Nat × α)} {k : Nat} {v : α} {c : Nat × α} (h : c ∈ tableSet d t k v) :
    (c = (k, v) ∧ v ≠ d) ∨ c ∈ t := by
  induction t with
  | nil =>
    by_cases hv : v = d <;> simp_all [tableSet]
  | cons a t ih =>
    rcases tableSet_cons (d := d) a t k v with ⟨-, hv, e⟩ | ⟨-, hv, e⟩ | ⟨-, hv, e⟩ | ⟨-, hv, e⟩ | ⟨-, e⟩ <;> rw [e] at h
    · exact .inr h
    · exact (List.mem_cons.1 h).imp (fun h => ⟨h, hv⟩) id
    · exact .inr (List.mem_cons_of_mem a h)
    · exact (List.mem_cons.1 h).imp (fun h => ⟨h, hv⟩) (List.mem_cons_of_mem a)
    · rcases List.mem_cons.1 h with rfl | h
      · exact .inr List.mem_cons_self
      · exact (ih h).imp id (List.mem_cons_of_mem a)

/-- A write keeps the canonical form. -/
theorem tableSet_wf {t : List (Nat × α)} (ht : tableWf d t) (k : Nat) (v : α) : tableWf d (tableSet d t k v) := by
  refine ⟨?_, fun c hc => ?_⟩
  · obtain ⟨hp, -⟩ := ht
    induction t with
    | nil => by_cases hv : v = d <;> simp [tableSet, hv]
    | cons a t ih =>
      obtain ⟨hhead, htail⟩ := List.pairwise_cons.1 hp
      rcases tableSet_cons (d := d) a t k v with ⟨h, -, e⟩ | ⟨h, -, e⟩ | ⟨h, -, e⟩ | ⟨h, -, e⟩ | ⟨h, e⟩ <;> rw [e]
      · exact hp
      · refine List.pairwise_cons.2 ⟨fun c hc => ?_, hp⟩
        rcases List.mem_cons.1 hc with rfl | hc
        · exact h
        · exact Nat.lt_trans h (hhead c hc)
      · exact htail
      · exact List.pairwise_cons.2 ⟨fun c hc => h ▸ hhead c hc, htail⟩
      · refine List.pairwise_cons.2 ⟨fun c hc => ?_, ih htail⟩
        rcases mem_tableSet hc with ⟨rfl, -⟩ | hc
        · exact h
        · exact hhead c hc
  · rcases mem_tableSet hc with ⟨rfl, hv⟩ | hc
    · exact hv
    · exact ht.2 c hc

end Table

/-! ## The framebuffer -/

theorem Memory.wf_nil : Memory.wf [] := ⟨List.Pairwise.nil, fun _ h => nomatch h⟩

theorem Memory.write_wf {m : Memory} (h : m.wf) (a : Nat) (v : Byte) : (m.write a v).wf := tableSet_wf h a v

theorem Memory.read_write {m : Memory} (h : m.wf) (a : Nat) (v : Byte) (b : Nat) :
    (m.write a v).read b = if b = a then v else m.read b := tableGet_tableSet h.1 a v b

theorem Memory.writeBytes_wf {m : Memory} (h : m.wf) (a : Nat) (bs : List Byte) : (m.writeBytes a bs).wf := by
  induction bs generalizing m a with
  | nil => exact h
  | cons b bs ih => exact ih (Memory.write_wf h a b) (a + 1)

/-- Reading after a write of consecutive bytes: byte `k` of them at offset `a + k`, every other offset as before. -/
theorem Memory.read_writeBytes {m : Memory} (h : m.wf) (a : Nat) (bs : List Byte) (b : Nat) :
    (m.writeBytes a bs).read b = if a ≤ b then bs.getD (b - a) (m.read b) else m.read b := by
  induction bs generalizing m a with
  | nil => simp [Memory.writeBytes]
  | cons x bs ih =>
    simp only [Memory.writeBytes, ih (Memory.write_wf h a x), Memory.read_write h]
    rcases Nat.lt_trichotomy b a with hb | hb | hb
    · rw [if_neg (by omega), if_neg (by omega), if_neg (by omega)]
    · subst hb; simp
    · rw [if_pos (show a + 1 ≤ b from hb), if_pos (Nat.le_of_lt hb), if_neg (Nat.ne_of_gt hb),
        show b - a = (b - (a + 1)) + 1 by omega, List.getD_cons_succ]

theorem Memory.mem_writeBytes {m : Memory} {a : Nat} {bs : List Byte} {c : Host.Cell} (h : c ∈ m.writeBytes a bs) :
    c ∈ m ∨ (a ≤ c.1 ∧ c.1 < a + bs.length) := by
  induction bs generalizing m a with
  | nil => exact .inl h
  | cons b bs ih =>
    rcases ih h with h | h
    · rcases mem_tableSet h with ⟨rfl, -⟩ | h
      · right; simp
      · exact .inl h
    · right; simp only [List.length_cons]; omega

@[simp] theorem Memory.readBytes_length (m : Memory) (a n : Nat) : (m.readBytes a n).length = n := by
  simp [Memory.readBytes]

/-- The freshly created buffer is black. -/
theorem Memory.readBytes_nil (n : Nat) : Memory.readBytes [] 0 n = List.replicate n 0 := by
  refine List.eq_replicate_iff.2 ⟨by simp, fun b hb => ?_⟩
  obtain ⟨k, -, rfl⟩ := List.mem_map.1 hb
  rfl

end Sys2Proof.Machine
end

