-- ==== Sys2Proof/Laws/Operands.lean ====
section
/-!
SUPPORT. Sys2Proof/Laws/Operands.lean: what the operand forms and the arithmetic primitives give.
-/

namespace Sys2Proof

theorem Params.normalise_valid (p : Params) : p.normalise.Valid := by
  refine ⟨?_, ?_, ?_, ?_, ?_⟩ <;> simp [Params.normalise]

theorem Params.normalise_of_valid (p : Params) (h : p.Valid) : p.normalise = p := by
  obtain ⟨h1, h2, h3, h4, h5⟩ := h
  simp only [Params.normalise, max_eq_right h1, max_eq_right (Nat.succ_le_of_lt h2), max_eq_right h3, max_eq_right h4,
    max_eq_right h5]

theorem Config.params_valid : Config.params.Valid := Params.normalise_valid _

end Sys2Proof

namespace Sys2Proof.Machine

theorem clamp_range (v : Int) {lo hi : Int} (h : lo ≤ hi) : lo ≤ clamp v lo hi ∧ clamp v lo hi ≤ hi := by
  unfold clamp; split <;> [omega; (split <;> omega)]

theorem clamp_of_mem {v lo hi : Int} (h1 : lo ≤ v) (h2 : v ≤ hi) : clamp v lo hi = v := by
  unfold clamp; rw [if_neg (by omega), if_neg (by omega)]

theorem clamp_of_lt {v lo hi : Int} (h : v < lo) : clamp v lo hi = lo := if_pos h

theorem clamp_of_gt {v lo hi : Int} (h1 : lo ≤ hi) (h2 : hi < v) : clamp v lo hi = hi := by
  unfold clamp; rw [if_neg (by omega), if_pos h2]

theorem emod_range (a : Int) {m : Int} (h : 0 < m) : 0 ≤ emod a m ∧ emod a m < m :=
  ⟨Int.emod_nonneg a (by omega), Int.emod_lt_of_pos a h⟩

theorem channelOf_of_mem {x : Int} (h : 0 ≤ x ∧ x ≤ 15) :
    channelOf x = some ⟨x.toNat, by simp only [nChannels]; omega⟩ := dif_pos h

theorem channelOf_eq_none {x : Int} : channelOf x = none ↔ x < 0 ∨ 15 < x := by
  unfold channelOf
  split <;> simp <;> omega

theorem channelOf_eq_some {x : Int} {c : Fin nChannels} : channelOf x = some c ↔ x = c.val := by
  have hc : c.val < 16 := c.isLt
  unfold channelOf
  split
  · rw [Option.some.injEq, Fin.ext_iff]; simp; omega
  · simp; omega

@[simp] theorem channelOf_val (c : Fin nChannels) : channelOf (c.val : Int) = some c := channelOf_eq_some.2 rfl

theorem pinOf_eq_some {p : Params} {x : Int} {n : Nat} : pinOf p x = some n ↔ x = n ∧ n < p.nPins := by
  unfold pinOf
  split
  · simp; omega
  · simp; omega

theorem pinOf_lt {p : Params} {x : Int} {n : Nat} (h : pinOf p x = some n) : n < p.nPins := (pinOf_eq_some.1 h).2

theorem pinOf_eq_none {p : Params} {x : Int} : pinOf p x = none ↔ x < 0 ∨ (p.nPins : Int) ≤ x := by
  unfold pinOf
  split
  · simp; omega
  · simp; omega

/-- The numbers of the pull modes (R170, D22). -/
theorem pullModeOf_eq_some {x : Int} {m : PullMode} :
    pullModeOf x = some m ↔ (x = 0 ∧ m = .none) ∨ (x = 1 ∧ m = .down) ∨ (x = 2 ∧ m = .up) := by
  unfold pullModeOf
  split_ifs <;> cases m <;> simp [*]

theorem pullModeOf_eq_none {x : Int} : pullModeOf x = none ↔ x < 0 ∨ 2 < x := by
  unfold pullModeOf
  split_ifs <;> simp <;> omega

/-- A value that fits a byte keeps its value there. -/
theorem lo8_toNat {v : Int} (h : 0 ≤ v ∧ v ≤ 255) : ((lo8 v).toNat : Int) = v := by
  unfold lo8
  rw [BitVec.toNat_ofInt]
  omega

theorem lo8_toNat_cast (b : Byte) : lo8 (b.toNat : Int) = b := by
  unfold lo8; simp

theorem tickBytes_length (v : Int) : (tickBytes v).length = 2 := rfl

/-- The two bytes of a tick read back, low byte first, are the tick's low 16 bits (R54). -/
theorem le16_tickBytes (v : Int) : le16 ((lo16 v).extractLsb' 0 8) ((lo16 v).extractLsb' 8 8) = lo16 v := by
  unfold le16
  ext i hi
  simp only [BitVec.getElem_append, BitVec.getElem_extractLsb']
  split
  · rw [Nat.zero_add, BitVec.getLsbD_eq_getElem]
  · rw [show 8 + (i - 8) = i by omega, BitVec.getLsbD_eq_getElem]

theorem angNorm_range (d : Int) : 0 ≤ angNorm d ∧ angNorm d ≤ 270 := by
  have h := emod_range (d + angOffset) (m := 360) (by omega)
  simp only [angNorm, angSpan, angSnap]
  split_ifs <;> omega

theorem ticksOfPw_range (q : Rat) {levels : Nat} (period : Nat) (h : 2 ≤ levels) :
    1 ≤ ticksOfPw q levels period ∧ ticksOfPw q levels period ≤ (levels : Int) - 1 :=
  clamp_range _ (by omega)

theorem motorSpeed_range (v : Int) {levels : Nat} (h : 1 ≤ levels) :
    -((levels : Int) - 1) ≤ motorSpeed v levels ∧ motorSpeed v levels ≤ (levels : Int) - 1 :=
  clamp_range _ (by omega)

/-- The clamp of R10 as a maximum and a minimum. -/
theorem clamp_eq {lo hi : Int} (h : lo ≤ hi) (v : Int) : clamp v lo hi = max lo (min v hi) := by
  unfold clamp; split <;> [omega; (split <;> omega)]

theorem clampRat_eq {lo hi : Rat} (h : lo ≤ hi) (v : Rat) : clampRat v lo hi = max lo (min v hi) := by
  unfold clampRat
  split
  · next h' => rw [max_eq_left (le_trans (min_le_left _ _) (le_of_lt h'))]
  · split
    · next h1 h2 => rw [min_eq_right (le_of_lt h2), max_eq_right h]
    · next h1 h2 => rw [min_eq_left (not_lt.1 h2), max_eq_right (not_lt.1 h1)]

/-- The two bytes of a tick, by arithmetic. -/
theorem tickBytes_eq (v : Int) : tickBytes v = [BitVec.ofInt 8 v, BitVec.ofInt 8 (v / 256)] := by
  unfold tickBytes lo16
  congr 1
  · apply BitVec.eq_of_toNat_eq; simp [BitVec.toNat_ofInt]; omega
  · congr 1; apply BitVec.eq_of_toNat_eq; simp [BitVec.toNat_ofInt, Nat.shiftRight_eq_div_pow]; omega

theorem lo16_toNat {v : Int} (h : 0 ≤ v ∧ v ≤ 65535) : (lo16 v).toNat = v.toNat := by
  unfold lo16; rw [BitVec.toNat_ofInt]; omega

/-- A colour byte's value: the operand clamped to [0, 255]. -/
theorem colourByte_toNat (v : Int) : ((colourByte v).toNat : Int) = max 0 (min v 255) := by
  have := clamp_range v (lo := 0) (hi := 255) (by omega)
  rw [colourByte, lo8_toNat this, clamp_eq (by omega)]

end Sys2Proof.Machine
end

