-- ==== Sys2Proof/Laws/State.lean ====
section
/-!
SUPPORT. Sys2Proof/Laws/State.lean: for each record update of the machine, one lemma per field, true by rfl.
-/

namespace Sys2Proof.Machine

/-! ### emit -/

@[simp] theorem emit_pwm (e : Event) (s : State) : (emit e s).pwm = s.pwm := rfl
@[simp] theorem emit_pix (e : Event) (s : State) : (emit e s).pix = s.pix := rfl
@[simp] theorem emit_usr (e : Event) (s : State) : (emit e s).usr = s.usr := rfl
@[simp] theorem emit_mp3 (e : Event) (s : State) : (emit e s).mp3 = s.mp3 := rfl
@[simp] theorem emit_res (e : Event) (s : State) : (emit e s).res = s.res := rfl
@[simp] theorem emit_trace (e : Event) (s : State) : (emit e s).trace = s.trace ++ [e] := rfl
@[simp] theorem emit_params (e : Event) (s : State) : (emit e s).params = s.params := rfl
@[simp] theorem emit_port (e : Event) (s : State) : (emit e s).port = s.port := rfl
@[simp] theorem emit_env (e : Event) (s : State) : (emit e s).env = s.env := rfl

/-! ### setPwmInit -/

@[simp] theorem setPwmInit_pwm_addr (s : State) : (setPwmInit s).pwm.addr = s.pwm.addr := rfl
@[simp] theorem setPwmInit_pwm_levels (s : State) : (setPwmInit s).pwm.levels = s.pwm.levels := rfl
@[simp] theorem setPwmInit_pwm_period (s : State) : (setPwmInit s).pwm.period = s.pwm.period := rfl
@[simp] theorem setPwmInit_pwm_init (s : State) : (setPwmInit s).pwm.init = true := rfl
@[simp] theorem setPwmInit_pix (s : State) : (setPwmInit s).pix = s.pix := rfl
@[simp] theorem setPwmInit_usr (s : State) : (setPwmInit s).usr = s.usr := rfl
@[simp] theorem setPwmInit_mp3 (s : State) : (setPwmInit s).mp3 = s.mp3 := rfl
@[simp] theorem setPwmInit_res (s : State) : (setPwmInit s).res = s.res := rfl
@[simp] theorem setPwmInit_trace (s : State) : (setPwmInit s).trace = s.trace := rfl
@[simp] theorem setPwmInit_params (s : State) : (setPwmInit s).params = s.params := rfl
@[simp] theorem setPwmInit_port (s : State) : (setPwmInit s).port = s.port := rfl
@[simp] theorem setPwmInit_env (s : State) : (setPwmInit s).env = s.env := rfl

/-! ### setPixInit -/

@[simp] theorem setPixInit_pwm (s : State) : (setPixInit s).pwm = s.pwm := rfl
@[simp] theorem setPixInit_pix_rows (s : State) : (setPixInit s).pix.rows = s.pix.rows := rfl
@[simp] theorem setPixInit_pix_cols (s : State) : (setPixInit s).pix.cols = s.pix.cols := rfl
@[simp] theorem setPixInit_pix_pin (s : State) : (setPixInit s).pix.pin = s.pix.pin := rfl
@[simp] theorem setPixInit_pix_init (s : State) : (setPixInit s).pix.init = true := rfl
@[simp] theorem setPixInit_pix_buf (s : State) : (setPixInit s).pix.buf = s.pix.buf := rfl
@[simp] theorem setPixInit_usr (s : State) : (setPixInit s).usr = s.usr := rfl
@[simp] theorem setPixInit_mp3 (s : State) : (setPixInit s).mp3 = s.mp3 := rfl
@[simp] theorem setPixInit_res (s : State) : (setPixInit s).res = s.res := rfl
@[simp] theorem setPixInit_trace (s : State) : (setPixInit s).trace = s.trace := rfl
@[simp] theorem setPixInit_params (s : State) : (setPixInit s).params = s.params := rfl
@[simp] theorem setPixInit_port (s : State) : (setPixInit s).port = s.port := rfl
@[simp] theorem setPixInit_env (s : State) : (setPixInit s).env = s.env := rfl

/-! ### setMp3Init -/

@[simp] theorem setMp3Init_pwm (s : State) : (setMp3Init s).pwm = s.pwm := rfl
@[simp] theorem setMp3Init_pix (s : State) : (setMp3Init s).pix = s.pix := rfl
@[simp] theorem setMp3Init_usr (s : State) : (setMp3Init s).usr = s.usr := rfl
@[simp] theorem setMp3Init_mp3_init (s : State) : (setMp3Init s).mp3.init = true := rfl
@[simp] theorem setMp3Init_mp3_tx (s : State) : (setMp3Init s).mp3.tx = s.mp3.tx := rfl
@[simp] theorem setMp3Init_mp3_rx (s : State) : (setMp3Init s).mp3.rx = s.mp3.rx := rfl
@[simp] theorem setMp3Init_res (s : State) : (setMp3Init s).res = s.res := rfl
@[simp] theorem setMp3Init_trace (s : State) : (setMp3Init s).trace = s.trace := rfl
@[simp] theorem setMp3Init_params (s : State) : (setMp3Init s).params = s.params := rfl
@[simp] theorem setMp3Init_port (s : State) : (setMp3Init s).port = s.port := rfl
@[simp] theorem setMp3Init_env (s : State) : (setMp3Init s).env = s.env := rfl

/-! ### setFbUsed -/

@[simp] theorem setFbUsed_pwm (p : Nat) (b : Bool) (s : State) : (setFbUsed p b s).pwm = s.pwm := rfl
@[simp] theorem setFbUsed_pix (p : Nat) (b : Bool) (s : State) : (setFbUsed p b s).pix = s.pix := rfl
@[simp] theorem setFbUsed_usr_hist (p : Nat) (b : Bool) (s : State) : (setFbUsed p b s).usr.hist = s.usr.hist := rfl
@[simp] theorem setFbUsed_usr_fbUsed (p : Nat) (b : Bool) (s : State) : (setFbUsed p b s).usr.fbUsed = tableSet false s.usr.fbUsed p b := rfl
@[simp] theorem setFbUsed_usr_lastPw (p : Nat) (b : Bool) (s : State) : (setFbUsed p b s).usr.lastPw = s.usr.lastPw := rfl
@[simp] theorem setFbUsed_usr_phase (p : Nat) (b : Bool) (s : State) : (setFbUsed p b s).usr.phase = s.usr.phase := rfl
@[simp] theorem setFbUsed_mp3 (p : Nat) (b : Bool) (s : State) : (setFbUsed p b s).mp3 = s.mp3 := rfl
@[simp] theorem setFbUsed_res (p : Nat) (b : Bool) (s : State) : (setFbUsed p b s).res = s.res := rfl
@[simp] theorem setFbUsed_trace (p : Nat) (b : Bool) (s : State) : (setFbUsed p b s).trace = s.trace := rfl
@[simp] theorem setFbUsed_params (p : Nat) (b : Bool) (s : State) : (setFbUsed p b s).params = s.params := rfl
@[simp] theorem setFbUsed_port (p : Nat) (b : Bool) (s : State) : (setFbUsed p b s).port = s.port := rfl
@[simp] theorem setFbUsed_env (p : Nat) (b : Bool) (s : State) : (setFbUsed p b s).env = s.env := rfl

/-! ### setPhase -/

@[simp] theorem setPhase_pwm (ph : Phase) (s : State) : (setPhase ph s).pwm = s.pwm := rfl
@[simp] theorem setPhase_pix (ph : Phase) (s : State) : (setPhase ph s).pix = s.pix := rfl
@[simp] theorem setPhase_usr_hist (ph : Phase) (s : State) : (setPhase ph s).usr.hist = s.usr.hist := rfl
@[simp] theorem setPhase_usr_fbUsed (ph : Phase) (s : State) : (setPhase ph s).usr.fbUsed = s.usr.fbUsed := rfl
@[simp] theorem setPhase_usr_lastPw (ph : Phase) (s : State) : (setPhase ph s).usr.lastPw = s.usr.lastPw := rfl
@[simp] theorem setPhase_usr_phase (ph : Phase) (s : State) : (setPhase ph s).usr.phase = ph := rfl
@[simp] theorem setPhase_mp3 (ph : Phase) (s : State) : (setPhase ph s).mp3 = s.mp3 := rfl
@[simp] theorem setPhase_res (ph : Phase) (s : State) : (setPhase ph s).res = s.res := rfl
@[simp] theorem setPhase_trace (ph : Phase) (s : State) : (setPhase ph s).trace = s.trace := rfl
@[simp] theorem setPhase_params (ph : Phase) (s : State) : (setPhase ph s).params = s.params := rfl
@[simp] theorem setPhase_port (ph : Phase) (s : State) : (setPhase ph s).port = s.port := rfl
@[simp] theorem setPhase_env (ph : Phase) (s : State) : (setPhase ph s).env = s.env := rfl

/-! ### setRes -/

@[simp] theorem setRes_pwm (v : Int) (s : State) : (setRes v s).pwm = s.pwm := rfl
@[simp] theorem setRes_pix (v : Int) (s : State) : (setRes v s).pix = s.pix := rfl
@[simp] theorem setRes_usr (v : Int) (s : State) : (setRes v s).usr = s.usr := rfl
@[simp] theorem setRes_mp3 (v : Int) (s : State) : (setRes v s).mp3 = s.mp3 := rfl
@[simp] theorem setRes_res (v : Int) (s : State) : (setRes v s).res = BitVec.ofInt 32 v := rfl
@[simp] theorem setRes_trace (v : Int) (s : State) : (setRes v s).trace = s.trace := rfl
@[simp] theorem setRes_params (v : Int) (s : State) : (setRes v s).params = s.params := rfl
@[simp] theorem setRes_port (v : Int) (s : State) : (setRes v s).port = s.port := rfl
@[simp] theorem setRes_env (v : Int) (s : State) : (setRes v s).env = s.env := rfl

/-! ### regWrite -/

@[simp] theorem regWrite_pwm (r v : Byte) (s : State) : (regWrite r v s).pwm = s.pwm := rfl
@[simp] theorem regWrite_pix (r v : Byte) (s : State) : (regWrite r v s).pix = s.pix := rfl
@[simp] theorem regWrite_usr (r v : Byte) (s : State) : (regWrite r v s).usr = s.usr := rfl
@[simp] theorem regWrite_mp3 (r v : Byte) (s : State) : (regWrite r v s).mp3 = s.mp3 := rfl
@[simp] theorem regWrite_res (r v : Byte) (s : State) : (regWrite r v s).res = s.res := rfl
@[simp] theorem regWrite_trace (r v : Byte) (s : State) : (regWrite r v s).trace = s.trace ++ [.i2cWrite s.pwm.addr [r, v]] := rfl
@[simp] theorem regWrite_params (r v : Byte) (s : State) : (regWrite r v s).params = s.params := rfl
@[simp] theorem regWrite_port (r v : Byte) (s : State) : (regWrite r v s).port = s.port := rfl
@[simp] theorem regWrite_env (r v : Byte) (s : State) : (regWrite r v s).env = s.env := rfl

/-! ### regRead -/

@[simp] theorem regRead_pwm (r : Byte) (s : State) : (regRead r s).pwm = s.pwm := rfl
@[simp] theorem regRead_pix (r : Byte) (s : State) : (regRead r s).pix = s.pix := rfl
@[simp] theorem regRead_usr (r : Byte) (s : State) : (regRead r s).usr = s.usr := rfl
@[simp] theorem regRead_mp3 (r : Byte) (s : State) : (regRead r s).mp3 = s.mp3 := rfl
@[simp] theorem regRead_res (r : Byte) (s : State) : (regRead r s).res = s.res := rfl
@[simp] theorem regRead_trace (r : Byte) (s : State) : (regRead r s).trace = s.trace ++ [.i2cReadReg s.pwm.addr r (readAnswer s)] := rfl
@[simp] theorem regRead_params (r : Byte) (s : State) : (regRead r s).params = s.params := rfl
@[simp] theorem regRead_port (r : Byte) (s : State) : (regRead r s).port = s.port := rfl
@[simp] theorem regRead_env (r : Byte) (s : State) : (regRead r s).env = s.env.afterRead := rfl

/-! ### chanWrite -/

@[simp] theorem chanWrite_pwm (c : Fin nChannels) (on off : Int) (s : State) : (chanWrite c on off s).pwm = s.pwm := rfl
@[simp] theorem chanWrite_pix (c : Fin nChannels) (on off : Int) (s : State) : (chanWrite c on off s).pix = s.pix := rfl
@[simp] theorem chanWrite_usr (c : Fin nChannels) (on off : Int) (s : State) : (chanWrite c on off s).usr = s.usr := rfl
@[simp] theorem chanWrite_mp3 (c : Fin nChannels) (on off : Int) (s : State) : (chanWrite c on off s).mp3 = s.mp3 := rfl
@[simp] theorem chanWrite_res (c : Fin nChannels) (on off : Int) (s : State) : (chanWrite c on off s).res = s.res := rfl
@[simp] theorem chanWrite_trace (c : Fin nChannels) (on off : Int) (s : State) : (chanWrite c on off s).trace = s.trace ++ [.i2cWrite s.pwm.addr (channelRecord s.params c on off)] := rfl
@[simp] theorem chanWrite_params (c : Fin nChannels) (on off : Int) (s : State) : (chanWrite c on off s).params = s.params := rfl
@[simp] theorem chanWrite_port (c : Fin nChannels) (on off : Int) (s : State) : (chanWrite c on off s).port = s.port := rfl
@[simp] theorem chanWrite_env (c : Fin nChannels) (on off : Int) (s : State) : (chanWrite c on off s).env = s.env := rfl

/-! ### pulseIn -/

@[simp] theorem pulseIn_pwm (p : Nat) (s : State) : (pulseIn p s).pwm = s.pwm := rfl
@[simp] theorem pulseIn_pix (p : Nat) (s : State) : (pulseIn p s).pix = s.pix := rfl
@[simp] theorem pulseIn_usr (p : Nat) (s : State) : (pulseIn p s).usr = s.usr := rfl
@[simp] theorem pulseIn_mp3 (p : Nat) (s : State) : (pulseIn p s).mp3 = s.mp3 := rfl
@[simp] theorem pulseIn_res (p : Nat) (s : State) : (pulseIn p s).res = s.res := rfl
@[simp] theorem pulseIn_trace (p : Nat) (s : State) : (pulseIn p s).trace = s.trace ++ [.pulseIn p usrLimitUs (pulseAnswer s)] := rfl
@[simp] theorem pulseIn_params (p : Nat) (s : State) : (pulseIn p s).params = s.params := rfl
@[simp] theorem pulseIn_port (p : Nat) (s : State) : (pulseIn p s).port = s.port := rfl
@[simp] theorem pulseIn_env (p : Nat) (s : State) : (pulseIn p s).env = s.env.afterPulse := rfl

/-! ### ledRefresh -/

@[simp] theorem ledRefresh_pwm (s : State) : (ledRefresh s).pwm = s.pwm := rfl
@[simp] theorem ledRefresh_pix (s : State) : (ledRefresh s).pix = s.pix := rfl
@[simp] theorem ledRefresh_usr (s : State) : (ledRefresh s).usr = s.usr := rfl
@[simp] theorem ledRefresh_mp3 (s : State) : (ledRefresh s).mp3 = s.mp3 := rfl
@[simp] theorem ledRefresh_res (s : State) : (ledRefresh s).res = s.res := rfl
@[simp] theorem ledRefresh_trace (s : State) : (ledRefresh s).trace = s.trace ++ [.ledSend s.pix.pin (fbBytes s)] := rfl
@[simp] theorem ledRefresh_params (s : State) : (ledRefresh s).params = s.params := rfl
@[simp] theorem ledRefresh_port (s : State) : (ledRefresh s).port = s.port := rfl
@[simp] theorem ledRefresh_env (s : State) : (ledRefresh s).env = s.env := rfl

/-! ### recordSuccess -/

@[simp] theorem recordSuccess_pwm (p : Nat) (w : PulseWidth) (s : State) : (recordSuccess p w s).pwm = s.pwm := rfl
@[simp] theorem recordSuccess_pix (p : Nat) (w : PulseWidth) (s : State) : (recordSuccess p w s).pix = s.pix := rfl
@[simp] theorem recordSuccess_usr_hist (p : Nat) (w : PulseWidth) (s : State) : (recordSuccess p w s).usr.hist = tableSet 0 s.usr.hist p w := rfl
@[simp] theorem recordSuccess_usr_fbUsed (p : Nat) (w : PulseWidth) (s : State) : (recordSuccess p w s).usr.fbUsed = tableSet false s.usr.fbUsed p false := rfl
@[simp] theorem recordSuccess_usr_lastPw (p : Nat) (w : PulseWidth) (s : State) : (recordSuccess p w s).usr.lastPw = w := rfl
@[simp] theorem recordSuccess_usr_phase (p : Nat) (w : PulseWidth) (s : State) : (recordSuccess p w s).usr.phase = s.usr.phase := rfl
@[simp] theorem recordSuccess_mp3 (p : Nat) (w : PulseWidth) (s : State) : (recordSuccess p w s).mp3 = s.mp3 := rfl
@[simp] theorem recordSuccess_res (p : Nat) (w : PulseWidth) (s : State) : (recordSuccess p w s).res = s.res := rfl
@[simp] theorem recordSuccess_trace (p : Nat) (w : PulseWidth) (s : State) : (recordSuccess p w s).trace = s.trace := rfl
@[simp] theorem recordSuccess_params (p : Nat) (w : PulseWidth) (s : State) : (recordSuccess p w s).params = s.params := rfl
@[simp] theorem recordSuccess_port (p : Nat) (w : PulseWidth) (s : State) : (recordSuccess p w s).port = s.port := rfl
@[simp] theorem recordSuccess_env (p : Nat) (w : PulseWidth) (s : State) : (recordSuccess p w s).env = s.env := rfl

/-! ### createMatrix -/

@[simp] theorem createMatrix_pwm (r c : Int) (p : Nat) (s : State) : (createMatrix r c p s).pwm = s.pwm := rfl
@[simp] theorem createMatrix_pix_rows (r c : Int) (p : Nat) (s : State) : (createMatrix r c p s).pix.rows = (clamp r 1 255).toNat := rfl
@[simp] theorem createMatrix_pix_cols (r c : Int) (p : Nat) (s : State) : (createMatrix r c p s).pix.cols = (clamp c 1 255).toNat := rfl
@[simp] theorem createMatrix_pix_pin (r c : Int) (p : Nat) (s : State) : (createMatrix r c p s).pix.pin = p := rfl
@[simp] theorem createMatrix_pix_init (r c : Int) (p : Nat) (s : State) : (createMatrix r c p s).pix.init = s.pix.init := rfl
@[simp] theorem createMatrix_pix_buf (r c : Int) (p : Nat) (s : State) : (createMatrix r c p s).pix.buf = [] := rfl
@[simp] theorem createMatrix_usr (r c : Int) (p : Nat) (s : State) : (createMatrix r c p s).usr = s.usr := rfl
@[simp] theorem createMatrix_mp3 (r c : Int) (p : Nat) (s : State) : (createMatrix r c p s).mp3 = s.mp3 := rfl
@[simp] theorem createMatrix_res (r c : Int) (p : Nat) (s : State) : (createMatrix r c p s).res = s.res := rfl
@[simp] theorem createMatrix_trace (r c : Int) (p : Nat) (s : State) : (createMatrix r c p s).trace = s.trace := rfl
@[simp] theorem createMatrix_params (r c : Int) (p : Nat) (s : State) : (createMatrix r c p s).params = s.params := rfl
@[simp] theorem createMatrix_port (r c : Int) (p : Nat) (s : State) : (createMatrix r c p s).port = s.port := rfl
@[simp] theorem createMatrix_env (r c : Int) (p : Nat) (s : State) : (createMatrix r c p s).env = s.env := rfl

/-! ### withPort -/

@[simp] theorem withPort_pwm (s : State) (bs : List Byte) : (s.withPort bs).pwm = s.pwm := rfl
@[simp] theorem withPort_pix (s : State) (bs : List Byte) : (s.withPort bs).pix = s.pix := rfl
@[simp] theorem withPort_usr (s : State) (bs : List Byte) : (s.withPort bs).usr = s.usr := rfl
@[simp] theorem withPort_mp3 (s : State) (bs : List Byte) : (s.withPort bs).mp3 = s.mp3 := rfl
@[simp] theorem withPort_res (s : State) (bs : List Byte) : (s.withPort bs).res = s.res := rfl
@[simp] theorem withPort_trace (s : State) (bs : List Byte) : (s.withPort bs).trace = s.trace := rfl
@[simp] theorem withPort_params (s : State) (bs : List Byte) : (s.withPort bs).params = s.params := rfl
@[simp] theorem withPort_port (s : State) (bs : List Byte) : (s.withPort bs).port = bs := rfl
@[simp] theorem withPort_env (s : State) (bs : List Byte) : (s.withPort bs).env = s.env := rfl

/-! ### the environment's draws see only `env`, the buffer's size only `pix` -/

@[simp] theorem readAnswer_regWrite (r v : Byte) (s : State) : readAnswer (regWrite r v s) = readAnswer s := rfl
@[simp] theorem pulseAnswer_trigger (p : Nat) (m : PullMode) (s : State) : pulseAnswer (trigger p m s) = pulseAnswer s := rfl
@[simp] theorem pulseAnswer_emit (e : Event) (s : State) : pulseAnswer (emit e s) = pulseAnswer s := rfl
@[simp] theorem fbBytes_ledRefresh (s : State) : fbBytes (ledRefresh s) = fbBytes s := rfl
@[simp] theorem fbSize_ledRefresh (s : State) : fbSize (ledRefresh s) = fbSize s := rfl
@[simp] theorem fbSize_emit (e : Event) (s : State) : fbSize (emit e s) = fbSize s := rfl
@[simp] theorem fbSize_setPixInit (s : State) : fbSize (setPixInit s) = fbSize s := rfl
@[simp] theorem fbSize_withPort (s : State) (bs : List Byte) : fbSize (s.withPort bs) = fbSize s := rfl

end Sys2Proof.Machine
end

