-- ==== Sys2Proof/Laws/Ops.lean ====
section
/-!
SUPPORT. Sys2Proof/Laws/Ops.lean: one lemma for each shared operation that says all it does; proofs cite these and do not unfold the
operations.
-/

namespace Sys2Proof.Machine

/-! ## Initialisation and channel writes -/

/-- The events of `InitSeq` (R102) for a chip that answers the read with `m`. -/
def initEvents (p : Params) (u : Pwm) (m : Byte) : List Event :=
  [.i2cWrite u.addr [p.regMode, p.modeReset],
   .i2cReadReg u.addr p.regMode m,
   .i2cWrite u.addr [p.regMode, (m &&& p.modeKeepMask) ||| p.modeSleepBit],
   .i2cWrite u.addr [p.regPrescale, prescale u.period u.levels],
   .i2cWrite u.addr [p.regMode, m],
   .delayUs 5000,
   .i2cWrite u.addr [p.regMode, m ||| p.modeRunBits]]

/-- The initialisation sequence sets `PWM.INIT`, draws one answer and emits its seven events; nothing else. -/
theorem initSeq_eq (s : State) :
    initSeq s = { s with
      pwm := { s.pwm with init := true }
      env := s.env.afterRead
      trace := s.trace ++ initEvents s.params s.pwm (readAnswer s) } := by
  simp [initSeq, initEvents, regWrite, regRead, emit, setPwmInit, readAnswer]

@[simp] theorem initSeq_pwm_addr (s : State) : (initSeq s).pwm.addr = s.pwm.addr := by rw [initSeq_eq]
@[simp] theorem initSeq_pwm_levels (s : State) : (initSeq s).pwm.levels = s.pwm.levels := by rw [initSeq_eq]
@[simp] theorem initSeq_pwm_period (s : State) : (initSeq s).pwm.period = s.pwm.period := by rw [initSeq_eq]
@[simp] theorem initSeq_pwm_init (s : State) : (initSeq s).pwm.init = true := by rw [initSeq_eq]
@[simp] theorem initSeq_pix (s : State) : (initSeq s).pix = s.pix := by rw [initSeq_eq]
@[simp] theorem initSeq_usr (s : State) : (initSeq s).usr = s.usr := by rw [initSeq_eq]
@[simp] theorem initSeq_mp3 (s : State) : (initSeq s).mp3 = s.mp3 := by rw [initSeq_eq]
@[simp] theorem initSeq_res (s : State) : (initSeq s).res = s.res := by rw [initSeq_eq]
@[simp] theorem initSeq_params (s : State) : (initSeq s).params = s.params := by rw [initSeq_eq]
@[simp] theorem initSeq_port (s : State) : (initSeq s).port = s.port := by rw [initSeq_eq]
@[simp] theorem initSeq_env (s : State) : (initSeq s).env = s.env.afterRead := by rw [initSeq_eq]

theorem ensurePwmInit_of_init {s : State} (h : s.pwm.init = true) : ensurePwmInit s = s := if_pos h

theorem ensurePwmInit_of_not {s : State} (h : s.pwm.init = false) : ensurePwmInit s = initSeq s := by
  simp [ensurePwmInit, h]

/-- The lazy initialisation leaves a driver that is initialised; it changes nothing but the flag, the draws and the trace. -/
theorem ensurePwmInit_eq (s : State) : ∃ env evs,
    ensurePwmInit s = { s with pwm := { s.pwm with init := true }, env := env, trace := s.trace ++ evs } ∧
    (s.pwm.init = true → env = s.env ∧ evs = []) ∧
    (s.pwm.init = false → env = s.env.afterRead ∧ evs = initEvents s.params s.pwm (readAnswer s)) := by
  by_cases h : s.pwm.init
  · refine ⟨s.env, [], ?_, by simp, by simp [h]⟩
    rw [ensurePwmInit_of_init h]
    have : s.pwm = { s.pwm with init := true } := by rw [← h]
    rw [← this]; simp
  · refine ⟨_, _, ?_, by simp [h], fun _ => ⟨rfl, rfl⟩⟩
    rw [ensurePwmInit_of_not (by simpa using h), initSeq_eq]

theorem setChannel_of_bad {c : Int} (h : c < 0 ∨ 15 < c) (on off : Int) (s : State) : setChannel c on off s = s := by
  simp only [setChannel, channelOf_eq_none.2 h]

theorem setChannel_of_channel (c : Fin nChannels) (on off : Int) (s : State) :
    setChannel c.val on off s = chanWrite c on off (ensurePwmInit s) := by
  simp only [setChannel, channelOf_val]

/-- A channel write does nothing, or it is the record of that channel after the lazy initialisation. -/
theorem setChannel_cases (c on off : Int) (s : State) :
    ((c < 0 ∨ 15 < c) ∧ setChannel c on off s = s) ∨
    ∃ ch : Fin nChannels, c = ch.val ∧ setChannel c on off s = chanWrite ch on off (ensurePwmInit s) := by
  rcases h : channelOf c with _ | ch
  · exact .inl ⟨channelOf_eq_none.1 h, by simp only [setChannel, h]⟩
  · exact .inr ⟨ch, channelOf_eq_some.1 h, by simp only [setChannel, h]⟩

/-- A channel write touches the PWM flag, the draws and the trace only. -/
theorem setChannel_frame (c on off : Int) (s : State) : ∃ env evs,
    setChannel c on off s = { s with pwm := { s.pwm with init := (setChannel c on off s).pwm.init }, env := env, trace := s.trace ++ evs } ∧
    (s.pwm.init = true → (setChannel c on off s).pwm.init = true) := by
  rcases setChannel_cases c on off s with ⟨-, h⟩ | ⟨ch, -, h⟩ <;> rw [h]
  · exact ⟨s.env, [], by simp, id⟩
  · obtain ⟨env, evs, he, -⟩ := ensurePwmInit_eq s
    refine ⟨env, evs ++ [.i2cWrite s.pwm.addr (channelRecord s.params ch on off)], ?_, fun _ => by rw [he]; rfl⟩
    rw [he]; simp only [chanWrite, emit, List.append_assoc]

/-! ## The framebuffer -/

theorem pixelBytes_length (r g b : Int) : (pixelBytes r g b).length = 3 := rfl

/-- On a created matrix the offset of a pixel lies wholly inside the buffer, on a pixel boundary (R56). -/
theorem pixelOffset_range {s : State} (hr : 1 ≤ s.pix.rows) (hc : 1 ≤ s.pix.cols) (y x : Int) :
    0 ≤ pixelOffset s y x ∧ pixelOffset s y x + 3 ≤ fbSize s ∧ pixelOffset s y x % 3 = 0 := by
  obtain ⟨hy0, hy1⟩ := clamp_range y (lo := 0) (hi := (s.pix.rows : Int) - 1) (by omega)
  obtain ⟨hx0, hx1⟩ := clamp_range x (lo := 0) (hi := (s.pix.cols : Int) - 1) (by omega)
  simp only [pixelOffset, fbSize]
  generalize clamp y 0 _ = y' at *
  generalize clamp x 0 _ = x' at *
  have h0 : 0 ≤ y' * s.pix.cols := Int.mul_nonneg hy0 (by omega)
  have h1 : y' * s.pix.cols + s.pix.cols ≤ (s.pix.rows : Int) * s.pix.cols := by nlinarith
  push_cast
  refine ⟨by omega, by omega, by omega⟩

/-- A pixel write does nothing (an access outside the buffer), or it stores its three bytes at the pixel's offset, inside the buffer. -/
theorem setPixel_cases (y x r g b : Int) (s : State) :
    setPixel y x r g b s = s ∨
    (0 ≤ pixelOffset s y x ∧ pixelOffset s y x + 3 ≤ fbSize s ∧ setPixel y x r g b s =
      { s with pix := { s.pix with buf := s.pix.buf.writeBytes (pixelOffset s y x).toNat (pixelBytes r g b) } }) := by
  unfold setPixel memWrite
  split
  · next h => exact .inr ⟨h.1, h.2, rfl⟩
  · exact .inl rfl

/-- On a created matrix it stores the three bytes and changes nothing else. -/
theorem setPixel_of_created {s : State} (hr : 1 ≤ s.pix.rows) (hc : 1 ≤ s.pix.cols) (y x r g b : Int) :
    setPixel y x r g b s =
      { s with pix := { s.pix with buf := s.pix.buf.writeBytes (pixelOffset s y x).toNat (pixelBytes r g b) } } := by
  obtain ⟨h0, h1, -⟩ := pixelOffset_range hr hc y x
  exact if_pos ⟨h0, by rw [pixelBytes_length]; exact h1⟩

/-! ## Ranging -/

/-- The events of one attempt (R172) that measures `w`. -/
def attemptEvents (p : Nat) (m : PullMode) (w : PulseWidth) : List Event :=
  [.gpioPull p m, .gpioWrite p false, .delayUs 2, .gpioWrite p true, .delayUs 10, .gpioWrite p false, .pulseIn p 25000 w]

/-- One attempt returns the width drawn, emits its seven events, and leaves the phase at Success or Timeout. -/
theorem attempt_eq (p : Nat) (m : PullMode) (s : State) :
    attempt p m s = (pulseAnswer s,
      { s with
        usr := { s.usr with phase := if pulseAnswer s = 0 then .timeout else .success }
        env := s.env.afterPulse
        trace := s.trace ++ attemptEvents p m (pulseAnswer s) }) := by
  simp [attempt, trigger, attemptEvents, pulseIn, emit, setPhase, pulseAnswer]
  rfl

/-- The width a second draw gets. -/
def secondPulse (s : State) : PulseWidth := pulseAnswer { s with env := s.env.afterPulse }

/-- Where the first reading is not a timeout there is one attempt. -/
theorem ranging_of_echo {s : State} (h : pulseAnswer s ≠ 0) (p : Nat) (m : PullMode) : ranging p m s = attempt p m s := by
  simp [ranging, attempt_eq, h]

/-- Where it is one, the retry delay and a second attempt follow (R170). -/
theorem ranging_of_timeout {s : State} (h : pulseAnswer s = 0) (p : Nat) (m : PullMode) :
    ranging p m s = (secondPulse s,
      { s with
        usr := { s.usr with phase := if secondPulse s = 0 then .timeout else .success }
        env := s.env.afterPulse.afterPulse
        trace := s.trace ++ (attemptEvents p m 0 ++ [.delayUs 10000] ++ attemptEvents p m (secondPulse s)) }) := by
  have e : ∀ s' : State, s'.env = s.env.afterPulse → pulseAnswer s' = secondPulse s := fun s' h' => by
    simp only [pulseAnswer, secondPulse, h']
  simp only [ranging, attempt_eq, h, emit, usrRetryUs, if_true, List.append_assoc]
  rw [e _ rfl]

/-- The ranging loop touches the phase, the draws and the trace only; the phase ends at Timeout exactly where the width is 0. -/
theorem ranging_eq (p : Nat) (m : PullMode) (s : State) : ∃ env evs,
    (ranging p m s).2 = { s with
      usr := { s.usr with phase := if (ranging p m s).1 = 0 then .timeout else .success }
      env := env
      trace := s.trace ++ evs } := by
  by_cases h : pulseAnswer s = 0
  · exact ⟨_, _, by rw [ranging_of_timeout h]⟩
  · exact ⟨_, _, by rw [ranging_of_echo h, attempt_eq]⟩

/-! ## MP3 frames -/

theorem sendFrame_of_uninit {s : State} (h : s.mp3.init = false) (c : Int) (p : List Byte) : sendFrame c p s = s := if_pos h

theorem sendFrame_of_long {p : List Byte} (h : 250 < p.length) (c : Int) (s : State) : sendFrame c p s = s := by
  by_cases hi : s.mp3.init = false
  · exact sendFrame_of_uninit hi c p
  · unfold sendFrame; rw [if_neg hi, if_pos h]

theorem sendFrame_of_ready {s : State} {p : List Byte} (h : s.mp3.init = true) (hp : p.length ≤ 250) (c : Int) :
    sendFrame c p s = emit (.uartTx (frame (lo8 c) p)) s := by
  unfold sendFrame
  rw [if_neg (by simp [h]), if_neg (by simp only [mp3MaxPayload]; omega)]

/-- Sending does nothing, or transmits one frame of at most 250 payload bytes on an initialised link. -/
theorem sendFrame_cases (c : Int) (p : List Byte) (s : State) :
    sendFrame c p s = s ∨
    (s.mp3.init = true ∧ p.length ≤ 250 ∧ sendFrame c p s = emit (.uartTx (frame (lo8 c) p)) s) := by
  by_cases hi : s.mp3.init
  · by_cases hp : p.length ≤ 250
    · exact .inr ⟨hi, hp, sendFrame_of_ready hi hp c⟩
    · exact .inl (sendFrame_of_long (by omega) c s)
  · exact .inl (sendFrame_of_uninit (by simpa using hi) c p)

end Sys2Proof.Machine
end

