-- ==== Sys2Proof/Laws/Safety.lean ====
section
/-!
SUPPORT. Sys2Proof/Laws/Safety.lean: the readings of Safety.lean agree with the operations: the spelled-out record, frame and attempt
are the ones the operations emit, and what each channel write does to a channel's last-written tick.
-/

namespace Sys2Proof.Machine

theorem channelRecord_eq (p : Params) (c : Fin nChannels) (on off : Int) : channelRecord p c on off = spelledRecord p c.val on off := by
  simp [channelRecord, spelledRecord, tickBytes_eq, channelReg, lo8]

/-- A channel write on an initialised driver emits its record and does nothing else. -/
theorem setChannel_ready {s : State} (h : s.pwm.init = true) {c : Int} (h0 : 0 ≤ c) (h1 : c ≤ 15) (on off : Int) :
    setChannel c on off s = { s with trace := s.trace ++ [.i2cWrite s.pwm.addr (spelledRecord s.params c on off)] } := by
  obtain ⟨n, rfl⟩ := Int.eq_ofNat_of_zero_le h0
  have := setChannel_of_channel ⟨n, by simp only [nChannels]; omega⟩ on off s
  simp only at this
  rw [this, ensurePwmInit_of_init h, chanWrite, channelRecord_eq]; rfl

/-- A channel write on a driver not initialised is the initialisation followed by the same write. -/
theorem setChannel_lazy {s : State} (h : s.pwm.init = false) {c : Int} (h0 : 0 ≤ c) (h1 : c ≤ 15) (on off : Int) :
    setChannel c on off s = setChannel c on off (initSeq s) := by
  simp only [setChannel, channelOf_of_mem ⟨h0, h1⟩, ensurePwmInit_of_not h, ensurePwmInit_of_init (initSeq_pwm_init s)]

theorem setChannel_addr (c on off : Int) (s : State) : (setChannel c on off s).pwm.addr = s.pwm.addr := by
  obtain ⟨env, evs, he, -⟩ := setChannel_frame c on off s
  rw [he]

theorem setChannel_params (c on off : Int) (s : State) : (setChannel c on off s).params = s.params := by
  obtain ⟨env, evs, he, -⟩ := setChannel_frame c on off s
  rw [he]

/-- No event of the initialisation sequence is a channel record. -/
theorem filterMap_initEvents (a : I2cAddr) (reg : Byte) (p : Params) (u : Pwm) (m : Byte) :
    (initEvents p u m).filterMap (recordOff a reg) = [] := rfl

theorem ensurePwmInit_records (a : I2cAddr) (reg : Byte) (s : State) :
    (ensurePwmInit s).trace.filterMap (recordOff a reg) = s.trace.filterMap (recordOff a reg) := by
  obtain ⟨env, evs, he, h1, h2⟩ := ensurePwmInit_eq s
  rw [he]
  simp only [List.filterMap_append]
  by_cases h : s.pwm.init
  · rw [(h1 h).2]; simp
  · rw [(h2 (by simpa using h)).2, filterMap_initEvents]; simp

/-- A record is the one of its channel's register, with the tick's low 16 bits. -/
theorem recordOff_channelRecord (a : I2cAddr) (reg : Byte) (p : Params) (c : Fin nChannels) (on off : Int) :
    recordOff a reg (.i2cWrite a (channelRecord p c on off)) = if channelReg p c = reg then some (lo16 off) else none := by
  simp [recordOff, channelRecord, tickBytes, le16_tickBytes]

/-- After a channel write that channel's last-written tick is the one written; a channel with another register keeps its own. -/
theorem lastWritten_setChannel {s : State} {p : Params} {a : I2cAddr} (ha : s.pwm.addr = a) (hp : s.params = p) (c d : Fin nChannels)
    (on off : Int) :
    lastWrittenTick p a c (setChannel d.val on off s).trace =
      if channelReg p d = channelReg p c then some (lo16 off) else lastWrittenTick p a c s.trace := by
  subst ha hp
  obtain ⟨env, evs, he, -⟩ := ensurePwmInit_eq s
  rw [setChannel_of_channel, chanWrite]
  have e1 : (ensurePwmInit s).pwm.addr = s.pwm.addr := by rw [he]
  have e2 : (ensurePwmInit s).params = s.params := by rw [he]
  simp only [lastWrittenTick, emit, List.filterMap_append, ensurePwmInit_records, e1, e2, List.filterMap_cons, List.filterMap_nil,
    recordOff_channelRecord]
  split <;> simp_all

/-- At any instant of a channel write, the last-written ticks are those before it, or the write is over. -/
theorem setChannel_prefix {s : State} {p : Params} {a : I2cAddr} (ha : s.pwm.addr = a) (hp : s.params = p) (d : Fin nChannels)
    (on off : Int) {n : Nat} (hn : s.trace.length ≤ n) :
    (∀ c, lastWrittenTick p a c ((setChannel d.val on off s).trace.take n) = lastWrittenTick p a c s.trace) ∨
    (setChannel d.val on off s).trace.take n = (setChannel d.val on off s).trace := by
  subst ha hp
  rw [setChannel_of_channel, chanWrite]
  by_cases h : n < (ensurePwmInit s).trace.length + 1
  · left
    intro c
    obtain ⟨env, evs, he, h1, h2⟩ := ensurePwmInit_eq s
    have e0 : ∀ e ∈ evs, recordOff s.pwm.addr (channelReg s.params c) e = none := List.filterMap_eq_nil_iff.1 (by
      by_cases h : s.pwm.init
      · rw [(h1 h).2]; rfl
      · rw [(h2 (by simpa using h)).2, filterMap_initEvents])
    simp only [emit]
    rw [List.take_append_of_le_length (by omega), he]
    simp only [lastWrittenTick]
    rw [List.take_append, List.take_of_length_le hn, List.filterMap_append,
      List.filterMap_eq_nil_iff.2 fun e h => e0 e (List.mem_of_mem_take h), List.append_nil]
  · right
    rw [List.take_of_length_le]; simp [emit]; omega

/-- Events that are no record of either channel of a pair leave it as it was, at every instant. -/
theorem atMostOneDriven_append {p : Params} {a : I2cAddr} {f r : Fin nChannels} {tr evs : List Event}
    (hf : ∀ e ∈ evs, recordOff a (channelReg p f) e = none) (hr : ∀ e ∈ evs, recordOff a (channelReg p r) e = none)
    (h : atMostOneDriven p a f r tr) {n : Nat} (hn : tr.length ≤ n) : atMostOneDriven p a f r ((tr ++ evs).take n) := by
  have key : ∀ reg, (∀ e ∈ evs, recordOff a reg e = none) →
      ((tr ++ evs).take n).filterMap (recordOff a reg) = tr.filterMap (recordOff a reg) := fun reg he => by
    rw [List.take_append, List.take_of_length_le hn, List.filterMap_append,
      List.filterMap_eq_nil_iff.2 fun e h => he e (List.mem_of_mem_take h), List.append_nil]
  simpa only [atMostOneDriven, lastWrittenTick, key _ hf, key _ hr] using h

/-- The frame as the operations build it is the frame spelled out by arithmetic. -/
theorem frame_eq (c : Byte) (p : List Byte) : frame c p = spelledFrame c.toNat p := by
  have := c.isLt
  simp only [frame, spelledFrame, frameChecksum, mp3Start, mp3End]
  congr 2
  · simp
  · apply BitVec.eq_of_toNat_eq
    rw [BitVec.toNat_ofNat, BitVec.toNat_ofNat, show (0x7E : Byte).toNat = 126 from rfl]; omega

/-- The `plen` field of a word's bytes is its header's. -/
theorem plenField_bytes (h : Header) (r : List Byte) : plenField (h.bytes ++ r) = h.plen.toNat := by
  simp only [plenField, Header.bytes, le16Bytes, List.cons_append, List.nil_append, List.getD_cons_succ, List.getD_cons_zero]
  have := h.plen.isLt
  simp only [BitVec.extractLsb'_toNat, Nat.shiftRight_eq_div_pow]; omega

/-- A servo command on an initialised driver writes the one record of its tick. -/
theorem servoPulse_ready {s : State} (h : s.pwm.init = true) {c : Int} (h0 : 0 ≤ c) (h1 : c ≤ 15) (q : Rat) :
    servoPulse c q s = { s with trace := s.trace ++
      [.i2cWrite s.pwm.addr (spelledRecord s.params c 0 (ticksOfPw q s.pwm.levels s.pwm.period))] } := by
  simp only [servoPulse, setChannel_ready h h0 h1]

/-- Truncating a command operand to a byte keeps its low 8 bits (R191, R72). -/
theorem lo8_toInt (c : Word) : (lo8 c.toInt).toNat = c.toNat % 256 := by
  unfold lo8
  rw [BitVec.toNat_ofInt, BitVec.toInt_eq_toNat_cond]
  have := c.isLt
  split <;> omega

theorem spelledFrame_mod (c : Nat) (p : List Byte) : spelledFrame (c % 256) p = spelledFrame c p := by
  have : BitVec.ofNat 8 (c % 256) = BitVec.ofNat 8 c := by apply BitVec.eq_of_toNat_eq; simp
  simp [spelledFrame, this]

end Sys2Proof.Machine
end

