-- ==== Sys2Proof/Laws/Exec.lean ====
section
/-!
SUPPORT. Sys2Proof/Laws/Exec.lean: what a step can do, said once: its inversion, and the footprint of each unit's commands.
-/

namespace Sys2Proof.Machine

/-- A step that answers a next state waited, consumed a reserved opcode's word, or ran the command it consumed. -/
theorem step_cases {s t : State} (h : step s = .next t) :
    t = s ∨ (∃ hd : Header, s.port = hd.bytes ++ t.port ∧ t = { s with port := t.port }) ∨
    ∃ (i : Instr) (hd : Header) (rest : List Byte), s.port = hd.bytes ++ rest ∧ hd.plen.toNat = hd.payload.length ∧
      hd.instr = some i ∧ exec i { s with port := rest } = .next t := by
  unfold step takeCommand at h
  split at h
  · next i u hu =>
    split at hu <;> simp only [Taken.run.injEq, reduceCtorEq] at hu
    next j rest hd =>
    obtain ⟨rfl, rfl⟩ := hu
    obtain ⟨hd, hp, hl, hi⟩ := decode_command hd
    exact .inr (.inr ⟨j, hd, rest, hp, hl, hi, h⟩)
  · next u hu =>
    obtain rfl := Host.Outcome.next.inj h
    split at hu <;> simp only [Taken.nothing.injEq, reduceCtorEq] at hu
    · next op rest hd =>
      subst hu
      obtain ⟨hd, hp, -⟩ := decode_reservedOpcode hd
      exact .inr (.inl ⟨hd, hp, rfl⟩)
    · exact .inl hu.symm

theorem Env.afterRead_pulses (e : Env) : e.afterRead.pulses = e.pulses := by
  unfold Env.afterRead; split <;> rfl

theorem Env.afterPulse_reads (e : Env) : e.afterPulse.reads = e.reads := by
  unfold Env.afterPulse; split <;> rfl

/-! ## PWM, motor and servo commands -/

/-- An event of the PWM unit on the wires: a register write, a channel record, the read of the mode register, the oscillator wait. -/
def PwmEvent (p : Params) (u : Pwm) (e : Event) : Prop :=
  (∃ bytes, e = .i2cWrite u.addr bytes ∧ (bytes.length = 2 ∨ bytes.length = 5)) ∨ (∃ m, e = .i2cReadReg u.addr p.regMode m) ∨
    e = .delayUs 5000

/-- What the PWM unit's commands may change: the flag (never cleared), the draws of register reads, the trace. -/
def PwmFootprint (s t : State) : Prop :=
  ∃ init env evs, t = { s with pwm := { s.pwm with init := init }, env := env, trace := s.trace ++ evs } ∧
    (s.pwm.init = true → init = true) ∧ (evs ≠ [] → init = true) ∧ env.pulses = s.env.pulses ∧ ∀ e ∈ evs, PwmEvent s.params s.pwm e

theorem PwmFootprint.refl (s : State) : PwmFootprint s s := ⟨s.pwm.init, s.env, [], by simp, id, by simp, rfl, by simp⟩

theorem PwmFootprint.trans {s t u : State} (h : PwmFootprint s t) (h' : PwmFootprint t u) : PwmFootprint s u := by
  obtain ⟨init, env, evs, rfl, h1, h2, h3, h4⟩ := h
  obtain ⟨init', env', evs', rfl, h1', h2', h3', h4'⟩ := h'
  refine ⟨init', env', evs ++ evs', by simp, fun h => h1' (h1 h), fun h => ?_, h3'.trans h3, fun e he => ?_⟩
  · by_cases hn : evs = []
    · exact h2' (by simpa [hn] using h)
    · exact h1' (h2 hn)
  · exact (List.mem_append.1 he).elim (h4 e) (h4' e)

theorem initSeq_footprint (s : State) : PwmFootprint s (initSeq s) := by
  refine ⟨true, _, _, initSeq_eq s, fun _ => rfl, fun _ => rfl, Env.afterRead_pulses _, fun e he => ?_⟩
  simp only [initEvents, List.mem_cons, List.not_mem_nil, or_false] at he
  rcases he with rfl | rfl | rfl | rfl | rfl | rfl | rfl <;> simp [PwmEvent]

theorem setChannel_footprint (c on off : Int) (s : State) : PwmFootprint s (setChannel c on off s) := by
  rcases setChannel_cases c on off s with ⟨-, h⟩ | ⟨ch, -, h⟩ <;> rw [h]
  · exact .refl s
  · have hi : (ensurePwmInit s).pwm.init = true := by
      obtain ⟨env, evs, he, -⟩ := ensurePwmInit_eq s
      rw [he]
    refine PwmFootprint.trans (t := ensurePwmInit s) ?_ ⟨true, (ensurePwmInit s).env,
      [.i2cWrite (ensurePwmInit s).pwm.addr (channelRecord (ensurePwmInit s).params ch on off)], ?_, fun _ => rfl, fun _ => rfl, rfl, fun e he => ?_⟩
    · unfold ensurePwmInit
      split
      · exact .refl s
      · exact initSeq_footprint s
    · rw [← hi]; rfl
    · obtain rfl := List.mem_singleton.1 he
      exact .inl ⟨_, rfl, .inr (by simp [channelRecord, tickBytes_length])⟩

theorem execPwmInit_footprint {s t : State} (h : execPwmInit s = .next t) : PwmFootprint s t := by
  unfold execPwmInit at h
  split at h <;> obtain rfl := Host.Outcome.next.inj h
  · exact .refl s
  · exact initSeq_footprint s

theorem execMotor_footprint {f r v : Word} {s t : State} (h : execMotor f r v s = .next t) : PwmFootprint s t := by
  obtain rfl := Host.Outcome.next.inj h
  split
  · exact (setChannel_footprint ..).trans (setChannel_footprint ..)
  · exact (setChannel_footprint ..).trans (setChannel_footprint ..)

/-- `PWM_CFG` changes the configuration of a driver not initialised, within R22 to R24's ranges, and nothing else. -/
theorem execPwmCfg_cases {a l p : Word} {s t : State} (h : execPwmCfg a l p s = .next t) :
    t = s ∨ (s.pwm.init = false ∧ t = { s with pwm := t.pwm } ∧ t.pwm.init = false ∧
      (2 ≤ t.pwm.levels ∧ t.pwm.levels ≤ 65536) ∧ 1 ≤ t.pwm.period ∧ t.pwm.period ≤ 2147483647) := by
  unfold execPwmCfg at h
  split at h <;> obtain rfl := Host.Outcome.next.inj h
  · exact .inl rfl
  · next hi =>
    have h1 := clamp_range l.toInt (lo := 2) (hi := 65536) (by omega)
    have h2 := clamp_range p.toInt (lo := 1) (hi := 2147483647) (by omega)
    exact .inr ⟨by simpa using hi, rfl, by simpa using hi, ⟨by simp only; omega, by simp only; omega⟩, by simp only; omega,
      by simp only; omega⟩

/-! ## Pixel commands -/

/-- `PIX_INIT` does nothing, or creates a black matrix and refreshes it twice. -/
theorem execPixInit_cases {r c p : Word} {s t : State} (h : execPixInit r c p s = .next t) :
    t = s ∨ (s.pix.init = false ∧ t.pix.init = true ∧ (1 ≤ t.pix.rows ∧ t.pix.rows ≤ 255) ∧ (1 ≤ t.pix.cols ∧ t.pix.cols ≤ 255) ∧
      t.pix.pin < s.params.nPins ∧ t.pix.buf = [] ∧
      t = { s with pix := t.pix, trace := s.trace ++ [.ledSend t.pix.pin (fbBytes t), .ledSend t.pix.pin (fbBytes t)] }) := by
  unfold execPixInit at h
  split at h <;> obtain rfl := Host.Outcome.next.inj h
  · exact .inl rfl
  · next hi =>
    split
    · exact .inl rfl
    · next n hn =>
      have h1 := clamp_range r.toInt (lo := 1) (hi := 255) (by omega)
      have h2 := clamp_range c.toInt (lo := 1) (hi := 255) (by omega)
      refine .inr ⟨by simpa using hi, rfl, ⟨?_, ?_⟩, ⟨?_, ?_⟩, pinOf_lt hn, rfl, ?_⟩
      · simp only [setPixInit, ledRefresh, emit, createMatrix]; omega
      · simp only [setPixInit, ledRefresh, emit, createMatrix]; omega
      · simp only [setPixInit, ledRefresh, emit, createMatrix]; omega
      · simp only [setPixInit, ledRefresh, emit, createMatrix]; omega
      · simp [setPixInit, ledRefresh, emit, createMatrix, fbBytes, fbSize]

/-- What `PIX_SET`, `PIX_SETS` and `PIX_FILL` may change: the buffer, inside its length, keeping its canonical form. -/
def BufFootprint (s t : State) : Prop :=
  t = { s with pix := { s.pix with buf := t.pix.buf } } ∧ (s.pix.buf.wf → t.pix.buf.wf) ∧
    (∀ a, fbSize s ≤ a → s.pix.buf.wf → t.pix.buf.read a = s.pix.buf.read a) ∧
    ((∀ c ∈ s.pix.buf, c.1 < fbSize s) → ∀ c ∈ t.pix.buf, c.1 < fbSize s)

theorem BufFootprint.refl (s : State) : BufFootprint s s := ⟨rfl, id, fun _ _ _ => rfl, id⟩

theorem BufFootprint.fbSize {s t : State} (h : BufFootprint s t) : fbSize t = fbSize s := by
  rw [h.1]; rfl

theorem BufFootprint.trans {s t u : State} (h : BufFootprint s t) (h' : BufFootprint t u) : BufFootprint s u := by
  have hs := h.fbSize
  obtain ⟨h1, h2, h3, h4⟩ := h
  obtain ⟨h1', h2', h3', h4'⟩ := h'
  rw [hs] at h3' h4'
  refine ⟨?_, h2' ∘ h2, fun a ha hw => (h3' a ha (h2 hw)).trans (h3 a ha hw), h4' ∘ h4⟩
  rw [h1] at h1'
  exact h1'

theorem setPixel_footprint (y x r g b : Int) (s : State) : BufFootprint s (setPixel y x r g b s) := by
  rcases setPixel_cases y x r g b s with h | ⟨h3, h4, h⟩ <;> rw [h]
  · exact .refl s
  · refine ⟨rfl, fun hw => Memory.writeBytes_wf hw .., fun a ha hw => ?_, fun hb c hc => ?_⟩
    · rw [Memory.read_writeBytes hw, if_pos (by omega), List.getD_eq_default]
      rw [pixelBytes_length]; omega
    · rcases Memory.mem_writeBytes hc with hc | ⟨-, hc⟩
      · exact hb c hc
      · rw [pixelBytes_length] at hc; omega

theorem fillRow_footprint (row : Nat) (r g b : Int) (n : Nat) (s : State) : BufFootprint s (fillRow row r g b n s) := by
  induction n with
  | zero => exact .refl s
  | succ n ih => exact ih.trans (setPixel_footprint ..)

theorem fillRows_footprint (cols : Nat) (r g b : Int) (m : Nat) (s : State) : BufFootprint s (fillRows cols r g b m s) := by
  induction m with
  | zero => exact .refl s
  | succ m ih => exact ih.trans (fillRow_footprint ..)

/-- The matrix has the same dimensions before and after a write to its buffer. -/
theorem BufFootprint.dims {s t : State} (h : BufFootprint s t) : t.pix.rows = s.pix.rows ∧ t.pix.cols = s.pix.cols := by
  rw [h.1]; exact ⟨rfl, rfl⟩

/-- A row of `PIX_FILL`: the triple in its first `n` pixels, every other byte as before. -/
theorem fillRow_read {s : State} (hw : s.pix.buf.wf) {row : Nat} (hrow : row < s.pix.rows) (r g b : Int) {n : Nat}
    (hn : n ≤ s.pix.cols) (a : Nat) : (fillRow row r g b n s).pix.buf.read a =
    if row * s.pix.cols * 3 ≤ a ∧ a < (row * s.pix.cols + n) * 3 then (pixelBytes r g b).getD (a % 3) 0 else s.pix.buf.read a := by
  induction n with
  | zero => rw [if_neg (by omega)]; rfl
  | succ n ih =>
    have hf := fillRow_footprint row r g b n s
    obtain ⟨h1, h2⟩ := hf.dims
    have ih := ih (by omega)
    simp only [fillRow]
    generalize fillRow row r g b n s = u at *
    have ho : (pixelOffset u row n).toNat = (row * s.pix.cols + n) * 3 := by
      unfold pixelOffset
      rw [h1, h2, clamp_of_mem (by omega) (by omega), clamp_of_mem (by omega) (by omega)]
      exact_mod_cast Int.toNat_natCast _
    rw [setPixel_of_created (by omega) (by omega)]
    simp only
    rw [ho, Memory.read_writeBytes (hf.2.1 hw), ih]
    generalize row * s.pix.cols = q at *
    by_cases h1 : (q + n) * 3 ≤ a
    · rw [if_pos h1]
      by_cases h2 : a < (q + (n+1)) * 3
      · rw [if_neg (show ¬(q * 3 ≤ a ∧ a < (q + n) * 3) by omega), if_pos ⟨by omega, h2⟩]
        rw [show a - (q + n) * 3 = a % 3 by omega]
        have h3 : a % 3 < 3 := Nat.mod_lt _ (by omega)
        generalize a % 3 = k at h3
        have : k = 0 ∨ k = 1 ∨ k = 2 := by omega
        rcases this with rfl | rfl | rfl <;> rfl
      · rw [List.getD_eq_default _ _ (by rw [pixelBytes_length]; omega), if_neg (by omega), if_neg (by omega)]
    · rw [if_neg h1]
      by_cases h2 : q * 3 ≤ a
      · rw [if_pos ⟨h2, by omega⟩, if_pos ⟨h2, by omega⟩]
      · rw [if_neg (by omega), if_neg (by omega)]

/-- The first `m` rows of `PIX_FILL`: the triple in each of their pixels, every other byte as before. -/
theorem fillRows_read {s : State} (hw : s.pix.buf.wf) (r g b : Int) {m : Nat} (hm : m ≤ s.pix.rows) (a : Nat) :
    (fillRows s.pix.cols r g b m s).pix.buf.read a =
    if a < m * s.pix.cols * 3 then (pixelBytes r g b).getD (a % 3) 0 else s.pix.buf.read a := by
  induction m with
  | zero => rw [if_neg (by omega)]; rfl
  | succ m ih =>
    have hf := fillRows_footprint s.pix.cols r g b m s
    obtain ⟨h1, h2⟩ := hf.dims
    have ih := ih (by omega)
    simp only [fillRows]
    generalize fillRows s.pix.cols r g b m s = u at *
    rw [fillRow_read (hf.2.1 hw) (by omega) r g b (by omega), ih, h2, Nat.succ_mul]
    generalize m * s.pix.cols = q at *
    by_cases h3 : q * 3 ≤ a ∧ a < (q + s.pix.cols) * 3
    · rw [if_pos h3, if_pos h3.2]
    · rw [if_neg h3]
      by_cases h4 : a < q * 3
      · rw [if_pos h4, if_pos (by omega)]
      · rw [if_neg h4, if_neg (by omega)]

theorem execPixSet_footprint {y x r g b : Word} {s t : State} (h : execPixSet y x r g b s = .next t) : BufFootprint s t := by
  obtain rfl := Host.Outcome.next.inj h
  split
  · exact setPixel_footprint ..
  · exact .refl s

theorem execPixSets_footprint {y x r g b : Word} {s t : State} (h : execPixSets y x r g b s = .next t) : BufFootprint s t := by
  obtain rfl := Host.Outcome.next.inj h
  split_ifs
  · exact setPixel_footprint ..
  · exact .refl s
  · exact .refl s

theorem execPixFill_footprint {r g b : Word} {s t : State} (h : execPixFill r g b s = .next t) : BufFootprint s t := by
  obtain rfl := Host.Outcome.next.inj h
  split
  · exact fillRows_footprint ..
  · exact .refl s

theorem execPixRefresh_cases {s t : State} (h : execPixRefresh s = .next t) :
    t = s ∨ (s.pix.init = true ∧ t = { s with trace := s.trace ++ [.ledSend s.pix.pin (fbBytes s)] }) := by
  unfold execPixRefresh at h
  split at h <;> obtain rfl := Host.Outcome.next.inj h
  · next hi => exact .inr ⟨hi, rfl⟩
  · exact .inl rfl

/-! ## The ranging command -/

/-- An event of ranging on pin `p`. -/
def RangeEvent (p : Nat) (e : Event) : Prop :=
  (∃ m, e = .gpioPull p m) ∨ (∃ l, e = .gpioWrite p l) ∨ e = .delayUs 2 ∨ e = .delayUs 10 ∨ e = .delayUs 10000 ∨
    ∃ w, e = .pulseIn p 25000 w

theorem attemptEvents_mem {p : Nat} {m : PullMode} {w : PulseWidth} {e : Event} (h : e ∈ attemptEvents p m w) : RangeEvent p e := by
  simp only [attemptEvents, List.mem_cons, List.not_mem_nil, or_false] at h
  rcases h with rfl | rfl | rfl | rfl | rfl | rfl | rfl <;> simp [RangeEvent]

/-- The ranging loop: its width, and what it changes. -/
theorem ranging_footprint (p : Nat) (m : PullMode) (s : State) : ∃ ph env evs,
    (ranging p m s).2 = { s with usr := { s.usr with phase := ph }, env := env, trace := s.trace ++ evs } ∧
    env.reads = s.env.reads ∧ ∀ e ∈ evs, RangeEvent p e := by
  by_cases h : pulseAnswer s = 0
  · refine ⟨_, _, _, by rw [ranging_of_timeout h], ?_, fun e he => ?_⟩
    · rw [Env.afterPulse_reads, Env.afterPulse_reads]
    · simp only [List.mem_append, List.mem_singleton] at he
      rcases he with (he | rfl) | he
      · exact attemptEvents_mem he
      · simp [RangeEvent]
      · exact attemptEvents_mem he
  · refine ⟨_, _, _, by rw [ranging_of_echo h, attempt_eq], Env.afterPulse_reads _, fun e he => attemptEvents_mem he⟩

/-- What `USR_MEASURE` on pin `p` does after the ranging: the tables at `p`, `USR.LASTPW`, `RES`; the phase is Idle again. -/
theorem measurePin_eq (p : Nat) (m : PullMode) (mul dv : Int) (s : State) : ∃ hist fb last env evs,
    measurePin p m mul dv s = { s with
      usr := { hist := hist, fbUsed := fb, lastPw := last, phase := .idle }
      res := BitVec.ofInt 32 (distance (rawWidth p (ranging p m s).1 s) mul dv)
      env := env
      trace := s.trace ++ evs } ∧
    ((hist = s.usr.hist ∧ last = s.usr.lastPw ∧ fb = tableSet false s.usr.fbUsed p (!fbUsedAt s p)) ∨
      ((ranging p m s).1 ≠ 0 ∧ hist = tableSet 0 s.usr.hist p (ranging p m s).1 ∧ last = (ranging p m s).1 ∧
        fb = tableSet false s.usr.fbUsed p false)) ∧
    env.reads = s.env.reads ∧ ∀ e ∈ evs, RangeEvent p e := by
  obtain ⟨ph, env, evs, he, hr, hv⟩ := ranging_footprint p m s
  by_cases hw : (ranging p m s).1 = 0
  · refine ⟨s.usr.hist, _, s.usr.lastPw, env, evs, ?_, .inl ⟨rfl, rfl, rfl⟩, hr, hv⟩
    simp [measurePin, bookkeeping, rawWidth, hw, he, setFbUsed, setPhase, setRes, fbUsedAt, histAt]
    rfl
  · refine ⟨_, _, _, env, evs, ?_, .inr ⟨hw, rfl, rfl, rfl⟩, hr, hv⟩
    simp [measurePin, bookkeeping, rawWidth, hw, he, setFbUsed, setPhase, setRes, recordSuccess]

theorem execUsrMeasure_cases {pin mode mul dv : Word} {s t : State} (h : execUsrMeasure pin mode mul dv s = .next t) :
    t = { s with res := 0 } ∨
    ∃ (p : Nat) (m : PullMode), pin.toInt = (p : Int) ∧ p < s.params.nPins ∧ pullModeOf mode.toInt = some m ∧
      t = measurePin p m (clamp mul.toInt 0 65535) (clamp dv.toInt 1 65535) s := by
  unfold execUsrMeasure at h
  obtain rfl := Host.Outcome.next.inj h
  split
  · next p m hp hm => exact .inr ⟨p, m, (pinOf_eq_some.1 hp).1, pinOf_lt hp, hm, rfl⟩
  · exact .inl rfl

/-- Both attempts timed out: the history stays, the flag turns over, the result is the history or 0. -/
theorem measurePin_timeout {s : State} (h0 : pulseAnswer s = 0) (h1 : secondPulse s = 0) (p : Nat) (m : PullMode) (mul dv : Int) :
    measurePin p m mul dv s = { s with
      usr := { s.usr with fbUsed := tableSet false s.usr.fbUsed p (!fbUsedAt s p), phase := .idle }
      res := BitVec.ofInt 32 (distance (if fbUsedAt s p then 0 else histAt s p) mul dv)
      env := s.env.afterPulse.afterPulse
      trace := s.trace ++ (attemptTrace p m 0 ++ [.delayUs 10000] ++ attemptTrace p m 0) } := by
  simp only [measurePin, ranging_of_timeout h0, rawWidth, bookkeeping, h1, ne_eq, not_true, if_false, setFbUsed, setPhase, setRes]
  rfl

/-- `USR_MEASURE` with selectors that resolve. -/
theorem execUsrMeasure_of_selectors {s : State} {pin mode : Word} {p : Nat} {m : PullMode} (hp : pin.toInt = (p : Int))
    (hn : p < s.params.nPins) (hm : pullModeOf mode.toInt = some m) (mul dv : Word) :
    execUsrMeasure pin mode mul dv s =
      .next (measurePin p m (max 0 (min mul.toInt 65535)) (max 1 (min dv.toInt 65535)) s) := by
  simp only [execUsrMeasure, pinOf_eq_some.2 ⟨hp, hn⟩, hm]
  rw [clamp_eq (by omega), clamp_eq (by omega)]

theorem distance_range (raw : PulseWidth) {mul dv : Int} (h0 : 0 ≤ mul) (h1 : mul ≤ 65535) (h2 : 1 ≤ dv) :
    0 ≤ distance raw mul dv ∧ distance raw mul dv ≤ 1638375000 := by
  have hr := raw.isLt
  have hmul : (raw.val : Int) * mul ≤ 25000 * 65535 := by apply Int.mul_le_mul <;> omega
  have hpos : 0 ≤ (raw.val : Int) * mul := Int.mul_nonneg (by omega) h0
  exact ⟨Int.ediv_nonneg hpos (by omega), (Int.ediv_le_self _ hpos).trans (by omega)⟩

/-- A distance fits `RES` as a non-negative signed number. -/
theorem toInt_ofInt_distance (raw : PulseWidth) {mul dv : Int} (h0 : 0 ≤ mul) (h1 : mul ≤ 65535) (h2 : 1 ≤ dv) :
    (BitVec.ofInt 32 (distance raw mul dv)).toInt = distance raw mul dv := by
  have := distance_range raw h0 h1 h2
  rw [BitVec.toInt_ofInt_eq_self] <;> omega

/-! ## MP3 commands -/

/-- A sending command does nothing, or transmits one frame of at most 250 payload bytes on an initialised link. -/
def SendFootprint (s t : State) : Prop :=
  t = s ∨ (s.mp3.init = true ∧ ∃ c p, p.length ≤ 250 ∧ t = { s with trace := s.trace ++ [.uartTx (frame c p)] })

theorem sendFrame_footprint (c : Int) (p : List Byte) (s : State) : SendFootprint s (sendFrame c p s) := by
  rcases sendFrame_cases c p s with h | ⟨hi, hp, h⟩
  · exact .inl h
  · exact .inr ⟨hi, _, p, hp, h⟩

theorem execMp3Init_cases {tx rx : Word} {s t : State} (h : execMp3Init tx rx s = .next t) :
    t = s ∨ (s.mp3.init = false ∧ ∃ a b, a < s.params.nPins ∧ b < s.params.nPins ∧
      t = { s with mp3 := { init := true, tx := a, rx := b }, trace := s.trace ++ [.uartCfg a b 9600] }) := by
  unfold execMp3Init at h
  split at h <;> obtain rfl := Host.Outcome.next.inj h
  · exact .inl rfl
  · next hi =>
    split
    · next a b ha hb => exact .inr ⟨by simpa using hi, a, b, pinOf_lt ha, pinOf_lt hb, rfl⟩
    · exact .inl rfl

/-! ## Every command -/

/-- All that a command which answers a next state can have done. -/
inductive ExecShape (s : State) : State → Prop
  /-- the configuration of a driver not initialised -/
  | cfg (t : State) (h : s.pwm.init = false) (e : t = { s with pwm := t.pwm }) (hi : t.pwm.init = false)
      (hl : 2 ≤ t.pwm.levels ∧ t.pwm.levels ≤ 65536) (hp : 1 ≤ t.pwm.period ∧ t.pwm.period ≤ 2147483647) : ExecShape s t
  /-- initialisation and channel writes -/
  | pwm (t : State) (h : PwmFootprint s t) : ExecShape s t
  /-- the creation of the matrix -/
  | pixInit (t : State) (h : s.pix.init = false) (hi : t.pix.init = true) (hr : 1 ≤ t.pix.rows ∧ t.pix.rows ≤ 255)
      (hc : 1 ≤ t.pix.cols ∧ t.pix.cols ≤ 255) (hp : t.pix.pin < s.params.nPins) (hb : t.pix.buf = [])
      (e : t = { s with pix := t.pix, trace := s.trace ++ [.ledSend t.pix.pin (fbBytes t), .ledSend t.pix.pin (fbBytes t)] }) :
      ExecShape s t
  /-- pixel writes, and commands that do nothing -/
  | buf (t : State) (h : BufFootprint s t) : ExecShape s t
  /-- a refresh -/
  | refresh (h : s.pix.init = true) : ExecShape s { s with trace := s.trace ++ [.ledSend s.pix.pin (fbBytes s)] }
  /-- a measurement with a bad selector -/
  | badMeasure : ExecShape s { s with res := 0 }
  /-- a measurement -/
  | measure (p : Nat) (m : PullMode) (mul dv : Int) (hp : p < s.params.nPins) : ExecShape s (measurePin p m mul dv s)
  /-- the serial redirection -/
  | mp3Init (h : s.mp3.init = false) (a b : Nat) (ha : a < s.params.nPins) (hb : b < s.params.nPins) :
      ExecShape s { s with mp3 := { init := true, tx := a, rx := b }, trace := s.trace ++ [.uartCfg a b 9600] }
  /-- the sending commands -/
  | send (t : State) (h : SendFootprint s t) : ExecShape s t

/-- The one case analysis over all commands that later proofs need. -/
theorem exec_shape {i : Instr} {s t : State} (h : exec i s = .next t) : ExecShape s t := by
  cases i <;> simp only [exec] at h
  case pwmCfg =>
    rcases execPwmCfg_cases h with rfl | ⟨h1, h2, h3, h4, h5⟩
    · exact .pwm _ (.refl _)
    · exact .cfg _ h1 h2 h3 h4 h5
  case pwmInit => exact .pwm _ (execPwmInit_footprint h)
  case pwmSetch => obtain rfl := Host.Outcome.next.inj h; exact .pwm _ (setChannel_footprint ..)
  case motor => exact .pwm _ (execMotor_footprint h)
  case servoPw => obtain rfl := Host.Outcome.next.inj h; exact .pwm _ (setChannel_footprint ..)
  case servoCs => obtain rfl := Host.Outcome.next.inj h; exact .pwm _ (setChannel_footprint ..)
  case servoAng => obtain rfl := Host.Outcome.next.inj h; exact .pwm _ (setChannel_footprint ..)
  case servoWide => obtain rfl := Host.Outcome.next.inj h; exact .pwm _ (setChannel_footprint ..)
  case pixInit =>
    rcases execPixInit_cases h with rfl | h
    · exact .buf _ (.refl _)
    · exact .pixInit _ h.1 h.2.1 h.2.2.1 h.2.2.2.1 h.2.2.2.2.1 h.2.2.2.2.2.1 h.2.2.2.2.2.2
  case pixSet => exact .buf _ (execPixSet_footprint h)
  case pixSets => exact .buf _ (execPixSets_footprint h)
  case pixFill => exact .buf _ (execPixFill_footprint h)
  case pixRefresh =>
    rcases execPixRefresh_cases h with rfl | ⟨h', rfl⟩
    · exact .buf _ (.refl _)
    · exact .refresh h'
  case usrMeasure =>
    rcases execUsrMeasure_cases h with rfl | ⟨p, m, -, hp, -, rfl⟩
    · exact .badMeasure
    · exact .measure p m _ _ hp
  case mp3Init =>
    rcases execMp3Init_cases h with rfl | ⟨h', a, b, ha, hb, rfl⟩
    · exact .buf _ (.refl _)
    · exact .mp3Init h' a b ha hb
  all_goals obtain rfl := Host.Outcome.next.inj h; exact .send _ (sendFrame_footprint ..)

end Sys2Proof.Machine
end

