-- ==== Sys2Proof/Laws/PerInstr.lean ====
section
/-!
SUPPORT. Sys2Proof/Laws/PerInstr.lean: the families of statements about each command as syntax, one lemma for each constructor.
HeaderReadBack: the header the encoder writes names the command it was made from, with every operand and the payload.
PlenHonest: in the header of a well-formed command `plen` is the length of the payload (R70, R83).
-/

namespace Sys2Proof.Laws.HeaderReadBack

/-- The header of `i` names `i`. -/
def Statement (i : Instr) : Prop := (headerOf i).instr = some i

theorem pwmCfg (a b c : Word) : Statement (.pwmCfg a b c) := rfl
theorem pwmInit : Statement (.pwmInit) := rfl
theorem pwmSetch (a b c : Word) : Statement (.pwmSetch a b c) := rfl
theorem motor (a b c : Word) : Statement (.motor a b c) := rfl
theorem servoPw (a b : Word) : Statement (.servoPw a b) := rfl
theorem servoCs (a b : Word) : Statement (.servoCs a b) := rfl
theorem servoAng (a b : Word) : Statement (.servoAng a b) := rfl
theorem servoWide (a b : Word) : Statement (.servoWide a b) := rfl
theorem pixInit (a b c : Word) : Statement (.pixInit a b c) := rfl
theorem pixSet (a b c d e : Word) : Statement (.pixSet a b c d e) := rfl
theorem pixFill (a b c : Word) : Statement (.pixFill a b c) := rfl
theorem pixSets (a b c d e : Word) : Statement (.pixSets a b c d e) := rfl
theorem pixRefresh : Statement (.pixRefresh) := rfl
theorem usrMeasure (a b c d : Word) : Statement (.usrMeasure a b c d) := rfl
theorem mp3Init (a b : Word) : Statement (.mp3Init a b) := rfl
theorem mp3Send (c : Word) (p : List Byte) : Statement (.mp3Send c p) := rfl
theorem mp3Sendstr (c : Word) (p : List Byte) : Statement (.mp3Sendstr c p) := rfl
theorem mp3Play : Statement (.mp3Play) := rfl
theorem mp3Stop : Statement (.mp3Stop) := rfl
theorem mp3Next : Statement (.mp3Next) := rfl
theorem mp3Prev : Statement (.mp3Prev) := rfl
theorem mp3Vol (a : Word) : Statement (.mp3Vol a) := rfl
theorem mp3Playnum (a : Word) : Statement (.mp3Playnum a) := rfl
theorem mp3Playname (p : List Byte) : Statement (.mp3Playname p) := rfl

end Sys2Proof.Laws.HeaderReadBack

namespace Sys2Proof.Laws.PlenHonest

/-- The header of a well-formed `i` carries its payload and that payload's length. -/
def Statement (i : Instr) : Prop :=
  i.WellFormed → (headerOf i).payload = i.payload ∧ (headerOf i).plen.toNat = i.payload.length

theorem pwmCfg (a b c : Word) : Statement (.pwmCfg a b c) := fun _ => ⟨rfl, rfl⟩
theorem pwmInit : Statement (.pwmInit) := fun _ => ⟨rfl, rfl⟩
theorem pwmSetch (a b c : Word) : Statement (.pwmSetch a b c) := fun _ => ⟨rfl, rfl⟩
theorem motor (a b c : Word) : Statement (.motor a b c) := fun _ => ⟨rfl, rfl⟩
theorem servoPw (a b : Word) : Statement (.servoPw a b) := fun _ => ⟨rfl, rfl⟩
theorem servoCs (a b : Word) : Statement (.servoCs a b) := fun _ => ⟨rfl, rfl⟩
theorem servoAng (a b : Word) : Statement (.servoAng a b) := fun _ => ⟨rfl, rfl⟩
theorem servoWide (a b : Word) : Statement (.servoWide a b) := fun _ => ⟨rfl, rfl⟩
theorem pixInit (a b c : Word) : Statement (.pixInit a b c) := fun _ => ⟨rfl, rfl⟩
theorem pixSet (a b c d e : Word) : Statement (.pixSet a b c d e) := fun _ => ⟨rfl, rfl⟩
theorem pixFill (a b c : Word) : Statement (.pixFill a b c) := fun _ => ⟨rfl, rfl⟩
theorem pixSets (a b c d e : Word) : Statement (.pixSets a b c d e) := fun _ => ⟨rfl, rfl⟩
theorem pixRefresh : Statement (.pixRefresh) := fun _ => ⟨rfl, rfl⟩
theorem usrMeasure (a b c d : Word) : Statement (.usrMeasure a b c d) := fun _ => ⟨rfl, rfl⟩
theorem mp3Init (a b : Word) : Statement (.mp3Init a b) := fun _ => ⟨rfl, rfl⟩
theorem mp3Send (c : Word) (p : List Byte) : Statement (.mp3Send c p) := fun h => ⟨rfl, mkHeader_plen h⟩
theorem mp3Sendstr (c : Word) (p : List Byte) : Statement (.mp3Sendstr c p) := fun h => ⟨rfl, mkHeader_plen h⟩
theorem mp3Play : Statement (.mp3Play) := fun _ => ⟨rfl, rfl⟩
theorem mp3Stop : Statement (.mp3Stop) := fun _ => ⟨rfl, rfl⟩
theorem mp3Next : Statement (.mp3Next) := fun _ => ⟨rfl, rfl⟩
theorem mp3Prev : Statement (.mp3Prev) := fun _ => ⟨rfl, rfl⟩
theorem mp3Vol (a : Word) : Statement (.mp3Vol a) := fun _ => ⟨rfl, rfl⟩
theorem mp3Playnum (a : Word) : Statement (.mp3Playnum a) := fun _ => ⟨rfl, rfl⟩
theorem mp3Playname (p : List Byte) : Statement (.mp3Playname p) := fun h => ⟨rfl, mkHeader_plen h⟩

end Sys2Proof.Laws.PlenHonest
end

