-- ==== Sys2Proof/Tests/Slice0.lean ====
section
/-!
SUPPORT. Sys2Proof/Tests/Slice0.lean: small tests of the model and the witnesses of the obligations' hypotheses.
The expected results come from spec/95_test_vectors.md (the row's name stands before each test) or from the worked examples of the
rules, never from the model. The register numbers, servo constants and command bytes of `ex` are that file's own choices for the open
parameters ("default register parameters" and "EX"), no claim about any device.
-/

namespace Sys2Proof.Tests

open Sys2Proof Sys2Proof.Machine

/-! ## Helpers -/

/-- The default register parameters, EX, and 16 pins. -/
def ex : Params :=
  { nPins := 16, regMode := 0x00, regPrescale := 0xFE, regChBase := 0x06, chStride := 4, modeReset := 0x00, modeSleepBit := 0x10,
    modeKeepMask := 0x7F, modeRunBits := 0xA1, csSpeedMax := 100, csNeutralUs := 1500, csDeflectUs := 500, csMinUs := 1000,
    csMaxUs := 2000, angPw0Us := 500, angPw270Us := 2500, angMinUs := 500, angMaxUs := 2500, widePw0Us := 500, widePw360Us := 2500,
    wideMinUs := 500, wideMaxUs := 2500, mp3CmdPlay := 1, mp3CmdStop := 2, mp3CmdNext := 3, mp3CmdPrev := 4, mp3CmdVol := 5,
    mp3CmdPlaynum := 6, mp3CmdPlayname := 7, uartFormat := 0 }

/-- The reset state with those parameters. -/
def base : State := { State.reset with params := ex, res := 7 }

/-- The PWM driver initialised. -/
def ready : State := { base with pwm := { base.pwm with init := true } }

/-- The reset state with answers to come. -/
def answering (reads : List Byte) (pulses : List PulseWidth) : State := { base with env := { reads := reads, pulses := pulses, drawn := 0 } }

/-- A created matrix, black. -/
def matrix (rows cols : Nat) : State := { base with pix := { rows := rows, cols := cols, pin := 0, init := true, buf := [] } }

/-- Pin 2 with a history and a flag, and readings to come. -/
def ranger (h : PulseWidth) (fb : Bool) (pulses : List PulseWidth) : State :=
  { answering [] pulses with usr := { hist := tableSet 0 [] 2 h, fbUsed := tableSet false [] 2 fb, lastPw := h, phase := .idle } }

/-- The MP3 link initialised on pins 14 and 13. -/
def linked : State := { base with mp3 := { init := true, tx := 14, rx := 13 } }

/-- A word from a signed number. -/
def sw (v : Int) : Word := BitVec.ofInt 32 v

/-- The trace after a step from an empty one. -/
def traceOf : Result → List Event
  | .next s => s.trace
  | .fault _ => []
  | .refused _ => []

/-- The state after a step. -/
def after (s : State) : Result → State
  | .next t => t
  | .fault _ => s
  | .refused _ => s

/-- The framebuffer after a step. -/
def bufOf (s : State) (r : Result) : List Byte := fbBytes (after s r)

/-- `RES`, the history of pin 2, its flag and `USR.LASTPW` after a step. -/
def rangeOf (s : State) (r : Result) : Int × Nat × Bool × Nat :=
  ((after s r).res.toInt, (histAt (after s r) 2).val, fbUsedAt (after s r) 2, (after s r).usr.lastPw.val)

/-! ## Well-formedness: the one check refuses a payload that `plen` cannot count -/

theorem test_wellFormed_payload_65535 : (Instr.mp3Send 0 (List.replicate 65535 0)).WellFormed := le_of_eq List.length_replicate

theorem test_illFormed_send : ¬ (Instr.mp3Send 0 (List.replicate 65536 0)).WellFormed :=
  Nat.not_le_of_lt (Nat.lt_of_lt_of_eq (by decide : 65535 < 65536) List.length_replicate.symm)

theorem test_illFormed_sendstr : ¬ (Instr.mp3Sendstr 0 (List.replicate 65536 0)).WellFormed :=
  Nat.not_le_of_lt (Nat.lt_of_lt_of_eq (by decide : 65535 < 65536) List.length_replicate.symm)

theorem test_illFormed_playname : ¬ (Instr.mp3Playname (List.replicate 65536 0)).WellFormed :=
  Nat.not_le_of_lt (Nat.lt_of_lt_of_eq (by decide : 65535 < 65536) List.length_replicate.symm)

/-! ## Decoding: every constructor from bytes written out in the spec (E1 to E24) -/

/-- E1 -/
theorem test_decode_pwmCfg : decode [0x10, 0, 0, 0x40, 0, 0, 0, 0, 0x10, 0, 0, 0, 0x50, 0, 0, 0, 0, 0, 0, 0, 0, 0, 0] = .command (.pwmCfg 0x40 4096 20480) [] := by decide

/-- E2 -/
theorem test_decode_pwmInit : decode [0x11, 0, 0, 0, 0, 0, 0, 0, 0, 0, 0, 0, 0, 0, 0, 0, 0, 0, 0, 0, 0, 0, 0] = .command (.pwmInit) [] := by decide

/-- E3 -/
theorem test_decode_pwmSetch : decode [0x12, 0, 0, 0x03, 0, 0, 0, 0, 0, 0, 0, 0x33, 0x01, 0, 0, 0, 0, 0, 0, 0, 0, 0, 0] = .command (.pwmSetch 3 0 307) [] := by decide

/-- E4 -/
theorem test_decode_motor : decode [0x20, 0, 0, 0, 0, 0, 0, 0x01, 0, 0, 0, 0x01, 0xF0, 0xFF, 0xFF, 0, 0, 0, 0, 0, 0, 0, 0] = .command (.motor 0 1 (BitVec.ofInt 32 (-4095))) [] := by decide

/-- E5 -/
theorem test_decode_servoPw : decode [0x21, 0, 0, 0x03, 0, 0, 0, 0xDC, 0x05, 0, 0, 0, 0, 0, 0, 0, 0, 0, 0, 0, 0, 0, 0] = .command (.servoPw 3 1500) [] := by decide

/-- E6 -/
theorem test_decode_servoCs : decode [0x22, 0, 0, 0x02, 0, 0, 0, 0xCE, 0xFF, 0xFF, 0xFF, 0, 0, 0, 0, 0, 0, 0, 0, 0, 0, 0, 0] = .command (.servoCs 2 (BitVec.ofInt 32 (-50))) [] := by decide

/-- E7 -/
theorem test_decode_servoAng : decode [0x23, 0, 0, 0x04, 0, 0, 0, 0xD3, 0xFF, 0xFF, 0xFF, 0, 0, 0, 0, 0, 0, 0, 0, 0, 0, 0, 0] = .command (.servoAng 4 (BitVec.ofInt 32 (-45))) [] := by decide

/-- E8 -/
theorem test_decode_servoWide : decode [0x24, 0, 0, 0x05, 0, 0, 0, 0x67, 0x01, 0, 0, 0, 0, 0, 0, 0, 0, 0, 0, 0, 0, 0, 0] = .command (.servoWide 5 359) [] := by decide

/-- E9 -/
theorem test_decode_pixInit : decode [0x30, 0, 0, 0x08, 0, 0, 0, 0x08, 0, 0, 0, 0x01, 0, 0, 0, 0, 0, 0, 0, 0, 0, 0, 0] = .command (.pixInit 8 8 1) [] := by decide

/-- E10 -/
theorem test_decode_pixSet : decode [0x31, 0, 0, 0, 0, 0, 0, 0, 0, 0, 0, 0x0A, 0, 0, 0, 0x14, 0, 0, 0, 0x1E, 0, 0, 0] = .command (.pixSet 0 0 10 20 30) [] := by decide

/-- E11 -/
theorem test_decode_pixFill : decode [0x32, 0, 0, 0x01, 0, 0, 0, 0x02, 0, 0, 0, 0x03, 0, 0, 0, 0, 0, 0, 0, 0, 0, 0, 0] = .command (.pixFill 1 2 3) [] := by decide

/-- E12 -/
theorem test_decode_pixSets : decode [0x33, 0, 0, 0x03, 0, 0, 0, 0x01, 0, 0, 0, 0x0A, 0, 0, 0, 0x14, 0, 0, 0, 0x1E, 0, 0, 0] = .command (.pixSets 3 1 10 20 30) [] := by decide

/-- E13 -/
theorem test_decode_pixRefresh : decode [0x34, 0, 0, 0, 0, 0, 0, 0, 0, 0, 0, 0, 0, 0, 0, 0, 0, 0, 0, 0, 0, 0, 0] = .command (.pixRefresh) [] := by decide

/-- E14 -/
theorem test_decode_usrMeasure : decode [0x40, 0, 0, 0x02, 0, 0, 0, 0, 0, 0, 0, 0x01, 0, 0, 0, 0x3A, 0, 0, 0, 0, 0, 0, 0] = .command (.usrMeasure 2 0 1 58) [] := by decide

/-- E15 -/
theorem test_decode_mp3Init : decode [0x50, 0, 0, 0x0E, 0, 0, 0, 0x0D, 0, 0, 0, 0, 0, 0, 0, 0, 0, 0, 0, 0, 0, 0, 0] = .command (.mp3Init 14 13) [] := by decide

/-- E16 -/
theorem test_decode_mp3Send : decode [0x51, 0x02, 0, 0x31, 0, 0, 0, 0, 0, 0, 0, 0, 0, 0, 0, 0, 0, 0, 0, 0, 0, 0, 0, 0x0F, 0xFF] = .command (.mp3Send 0x31 [0x0F, 0xFF]) [] := by decide

/-- E17 -/
theorem test_decode_mp3Sendstr : decode [0x52, 0x05, 0, 0x07, 0, 0, 0, 0, 0, 0, 0, 0, 0, 0, 0, 0, 0, 0, 0, 0, 0, 0, 0, 0x61, 0x2E, 0x6D, 0x70, 0x33] = .command (.mp3Sendstr 0x07 [0x61, 0x2E, 0x6D, 0x70, 0x33]) [] := by decide

/-- E18 -/
theorem test_decode_mp3Play : decode [0x53, 0, 0, 0, 0, 0, 0, 0, 0, 0, 0, 0, 0, 0, 0, 0, 0, 0, 0, 0, 0, 0, 0] = .command (.mp3Play) [] := by decide

/-- E19 -/
theorem test_decode_mp3Stop : decode [0x54, 0, 0, 0, 0, 0, 0, 0, 0, 0, 0, 0, 0, 0, 0, 0, 0, 0, 0, 0, 0, 0, 0] = .command (.mp3Stop) [] := by decide

/-- E20 -/
theorem test_decode_mp3Next : decode [0x55, 0, 0, 0, 0, 0, 0, 0, 0, 0, 0, 0, 0, 0, 0, 0, 0, 0, 0, 0, 0, 0, 0] = .command (.mp3Next) [] := by decide

/-- E21 -/
theorem test_decode_mp3Prev : decode [0x56, 0, 0, 0, 0, 0, 0, 0, 0, 0, 0, 0, 0, 0, 0, 0, 0, 0, 0, 0, 0, 0, 0] = .command (.mp3Prev) [] := by decide

/-- E22 -/
theorem test_decode_mp3Vol : decode [0x57, 0, 0, 0x28, 0, 0, 0, 0, 0, 0, 0, 0, 0, 0, 0, 0, 0, 0, 0, 0, 0, 0, 0] = .command (.mp3Vol 40) [] := by decide

/-- E23 -/
theorem test_decode_mp3Playnum : decode [0x58, 0, 0, 0, 0, 0, 0, 0, 0, 0, 0, 0, 0, 0, 0, 0, 0, 0, 0, 0, 0, 0, 0] = .command (.mp3Playnum 0) [] := by decide

/-- E24 -/
theorem test_decode_mp3Playname : decode [0x59, 0x05, 0, 0, 0, 0, 0, 0, 0, 0, 0, 0, 0, 0, 0, 0, 0, 0, 0, 0, 0, 0, 0, 0x61, 0x2E, 0x6D, 0x70, 0x33] = .command (.mp3Playname [0x61, 0x2E, 0x6D, 0x70, 0x33]) [] := by decide

/-- E27 -/
theorem test_reserved_00 : decode (0 :: 0 :: 0 :: List.replicate 20 0xA5) = .reservedOpcode 0 [] := by decide

/-- E28 -/
theorem test_reserved_5A : decode (0x5A :: 3 :: 0 :: (List.replicate 20 0xA5 ++ [1, 2, 3, 0x11])) = .reservedOpcode 0x5A [0x11] := by
  decide

/-- E29 -/
theorem test_ignored_slots : decode ([0x11, 0, 0, 0xFF, 0xFF, 0xFF, 0xFF, 7, 0, 0, 0] ++ List.replicate 12 0xA5) = .command .pwmInit [] := by
  decide

/-- E31 -/
theorem test_ignored_a2 : decode ([0x21, 0, 0, 3, 0, 0, 0, 0xDC, 5, 0, 0, 0x99, 0x99, 0x99, 0x99] ++ List.replicate 8 0) =
    .command (.servoPw 3 1500) [] := by decide

/-- One byte short of a header, and one byte short of a payload. -/
theorem test_incomplete : decode (List.replicate 22 0x11) = .incomplete ∧
    decode (0x51 :: 3 :: 0 :: List.replicate 22 0) = .incomplete := by decide

/-- E25: the 184-bit word, bit 0 the least significant bit of byte 0. -/
theorem test_table_word : decodeTableWord 184 0x1330000000000000003000012 = some (.pwmSetch 3 0 307) := by decide

/-- Opcode 0x59 with `plen` 2 in a word of 184 bits: the payload bytes above are 0. -/
theorem test_table_word_payload : decodeTableWord 184 0x000259 = some (.mp3Playname [0, 0]) := by decide

theorem test_table_word_reserved : decodeTableWord 184 0x13 = none := by decide

theorem test_encode : encode (.pwmSetch 3 0 307) =
    [0x12, 0, 0, 3, 0, 0, 0, 0, 0, 0, 0, 0x33, 1, 0, 0, 0, 0, 0, 0, 0, 0, 0, 0] := by decide

/-- The very next step runs the word placed by `withFetchWord` (E2). -/
theorem test_fetch : traceOf (step (State.withFetchWord (matrix 1 1) 184 0x34)) = [.ledSend 0 [0, 0, 0]] := by decide

/-! ## PWM -/

/-- W1, Q1 -/
theorem test_pwmInit : traceOf (exec .pwmInit (answering [0x00] [])) =
    [.i2cWrite 0x40 [0x00, 0x00], .i2cReadReg 0x40 0x00 0x00, .i2cWrite 0x40 [0x00, 0x10], .i2cWrite 0x40 [0xFE, 0x79],
     .i2cWrite 0x40 [0x00, 0x00], .delayUs 5000, .i2cWrite 0x40 [0x00, 0xA1]] := by decide

/-- W2 -/
theorem test_pwmInit_answer91 : traceOf (exec .pwmInit (answering [0x91] [])) =
    [.i2cWrite 0x40 [0x00, 0x00], .i2cReadReg 0x40 0x00 0x91, .i2cWrite 0x40 [0x00, 0x11], .i2cWrite 0x40 [0xFE, 0x79],
     .i2cWrite 0x40 [0x00, 0x91], .delayUs 5000, .i2cWrite 0x40 [0x00, 0xB1]] := by decide

/-- Q2 to Q8 -/
theorem test_prescale : [prescale 20480 4096, prescale 2500 4096, prescale 10000 4096, prescale 1000 4096, prescale 1 4096,
    prescale 100000 4096, prescale 20000 1024] = [124, 14, 60, 5, 0, 255, 255] := by decide

/-- W4 -/
theorem test_pwmCfg_low : (after base (exec (.pwmCfg 200 1 0) base)).pwm = { addr := 127, levels := 2, period := 1, init := false } := by
  decide

/-- W5 -/
theorem test_pwmCfg_high : (after base (exec (.pwmCfg (sw (-1)) 70000 (sw (-5))) base)).pwm =
    { addr := 0, levels := 65536, period := 1, init := false } := by decide

/-- W11 -/
theorem test_pwmSetch_truncates : traceOf (exec (.pwmSetch 15 256 70000) ready) = [.i2cWrite 0x40 [0x42, 0x00, 0x01, 0x70, 0x11]] := by
  decide

/-- W9 -/
theorem test_pwmSetch_bad : (after base (exec (.pwmSetch 16 0 100) base)).pwm.init = false ∧
    traceOf (exec (.pwmSetch 16 0 100) base) = [] := by decide

/-! ## Motor and servos -/

/-- M7 -/
theorem test_motor_least : traceOf (exec (.motor 0 1 (sw (-2147483648))) ready) =
    [.i2cWrite 0x40 [0x06, 0, 0, 0, 0], .i2cWrite 0x40 [0x0A, 0, 0, 0xFF, 0x0F]] := by decide

/-- M10 -/
theorem test_motor_same_channel : traceOf (exec (.motor 5 5 7) ready) =
    [.i2cWrite 0x40 [0x1A, 0, 0, 0, 0], .i2cWrite 0x40 [0x1A, 0, 0, 7, 0]] := by decide

/-- T1 -/
theorem test_servoPw : traceOf (exec (.servoPw 3 1500) ready) = [.i2cWrite 0x40 [0x12, 0, 0, 0x33, 0x01]] := by decide +kernel

/-- T9, T10, T13 to T16 -/
theorem test_ticks : [ticksOfPw (-100) 4096 20000, ticksOfPw 19998 4096 20000, ticksOfPw 10 1000 20000, ticksOfPw 30 1000 20000,
    ticksOfPw 50 1000 20000, ticksOfPw (-10) 1000 20000] = [1, 4095, 1, 2, 3, 1] := by decide +kernel

/-- `rhu` alone (2.4) -/
theorem test_rhu : [rhu (5 / 2), rhu (-5 / 2), rhu (-1 / 2), rhu (1 / 2), rhu (7 / 4), rhu (-7 / 4)] = [3, -2, 0, 1, 2, -2] := by
  decide +kernel

/-- K4 and the example of R126: 358 = 0x0166. -/
theorem test_servoCs : traceOf (exec (.servoCs 2 50) ready) = [.i2cWrite 0x40 [0x0E, 0, 0, 0x66, 0x01]] := by decide +kernel

/-- K7: clamped to 1000, 205 = 0x00CD. -/
theorem test_servoCs_clamped : traceOf (exec (.servoCs 2 (sw (-150))) ready) = [.i2cWrite 0x40 [0x0E, 0, 0, 0xCD, 0x00]] := by
  decide +kernel

/-- A1 to A20 -/
theorem test_angNorm : [-45, 0, 90, 225, 226, 269, 270, 271, 314, 315, -46, -90, -91, 360, 585, -405, 45, 100, 2147483647,
    -2147483648].map angNorm = [0, 45, 135, 270, 270, 270, 0, 0, 0, 0, 0, 0, 270, 45, 270, 0, 90, 145, 172, 270] := by decide

/-- The example of R128: 250 degrees snap to 225, tick 512 = 0x0200. -/
theorem test_servoAng : traceOf (exec (.servoAng 4 250) ready) = [.i2cWrite 0x40 [0x16, 0, 0, 0x00, 0x02]] := by decide +kernel

/-- The example of R130: -1 degree is 359, tick 511 = 0x01FF. -/
theorem test_servoWide : traceOf (exec (.servoWide 5 (sw (-1))) ready) = [.i2cWrite 0x40 [0x1A, 0, 0, 0xFF, 0x01]] := by decide +kernel

/-! ## Pixels -/

/-- X1 -/
theorem test_pixInit : traceOf (exec (.pixInit 1 1 0) base) = [.ledSend 0 [0, 0, 0], .ledSend 0 [0, 0, 0]] := by decide

/-- X6 -/
theorem test_pixInit_bad_pin : (after base (exec (.pixInit 8 8 16) base)).pix.init = false := by decide

/-- X7, and the order green, red, blue -/
theorem test_pixSet : bufOf base (exec (.pixSet 1 2 255 0 128) (matrix 2 3)) = List.replicate 15 0 ++ [0, 255, 128] := by decide

/-- X8 -/
theorem test_pixSet_clamps : bufOf base (exec (.pixSet 9 (sw (-4)) 300 (sw (-1)) 7) (matrix 2 3)) =
    List.replicate 9 0 ++ [0, 255, 7] ++ List.replicate 6 0 := by decide

/-- X9 -/
theorem test_pixFill : bufOf base (exec (.pixFill 256 (sw (-1)) 128) (matrix 2 2)) =
    [0, 255, 128, 0, 255, 128, 0, 255, 128, 0, 255, 128] := by decide

/-- X17, S5: byte offset 36. -/
theorem test_pixSets : (after base (exec (.pixSets 3 1 10 20 30) (matrix 8 8))).pix.buf = [(36, 20), (37, 10), (38, 30)] := by decide

/-- X22: logical (-3, 9) is pixel 63. -/
theorem test_pixSets_clamps : (after base (exec (.pixSets (sw (-3)) 9 1 2 3) (matrix 8 8))).pix.buf = [(189, 2), (190, 1), (191, 3)] := by
  decide

/-- X10 -/
theorem test_pixRefresh : traceOf (exec .pixRefresh (after base (exec (.pixFill 1 2 3) (matrix 1 2)))) = [.ledSend 0 [2, 1, 3, 2, 1, 3]] := by
  decide

/-! ## Ranging -/

/-- U1: the events of one attempt. -/
theorem test_usrMeasure : traceOf (exec (.usrMeasure 2 0 1 58) (ranger 0 false [1160])) =
    [.gpioPull 2 .none, .gpioWrite 2 false, .delayUs 2, .gpioWrite 2 true, .delayUs 10, .gpioWrite 2 false, .pulseIn 2 25000 1160] := by
  decide

/-- U1, U2, U3, U4, U5, U6, U8, U14 -/
theorem test_usrMeasure_results :
    [rangeOf base (exec (.usrMeasure 2 0 1 58) (ranger 0 false [1160])), rangeOf base (exec (.usrMeasure 2 2 1 58) (ranger 0 false [0, 580])),
     rangeOf base (exec (.usrMeasure 2 0 1 58) (ranger 1160 false [0, 0])), rangeOf base (exec (.usrMeasure 2 0 1 58) (ranger 1160 true [0, 0])),
     rangeOf base (exec (.usrMeasure 2 0 1 58) (ranger 1160 true [25000])), rangeOf base (exec (.usrMeasure 2 0 1 58) (ranger 0 false [0, 0])),
     rangeOf base (exec (.usrMeasure 2 3 1 58) (ranger 1160 true [])), rangeOf base (exec (.usrMeasure 2 0 3 1) (ranger 1160 false [0, 0]))] =
    [(20, 1160, false, 1160), (10, 580, false, 580), (20, 1160, true, 1160), (0, 1160, false, 1160), (431, 25000, false, 25000),
     (0, 0, true, 0), (0, 1160, true, 1160), (3480, 1160, true, 1160)] := by decide

/-! ## MP3 -/

/-- G2 -/
theorem test_mp3Init : traceOf (exec (.mp3Init 14 13) base) = [.uartCfg 14 13 9600] := by decide

/-- G6 -/
theorem test_mp3Send_truncates : traceOf (exec (.mp3Send 0x1AA []) linked) = [.uartTx [0x7E, 0x03, 0xAA, 0x2B, 0xEF]] := by decide

/-- F6 -/
theorem test_mp3Send_no_escape : traceOf (exec (.mp3Send 0x7E [0x7E, 0xEF]) linked) =
    [.uartTx [0x7E, 0x05, 0x7E, 0x7E, 0xEF, 0x6E, 0xEF]] := by decide

/-- G9 -/
theorem test_mp3Sendstr : traceOf (exec (.mp3Sendstr 7 [0x61, 0x2E, 0x6D, 0x70, 0x33]) linked) =
    [.uartTx [0x7E, 0x08, 0x07, 0x61, 0x2E, 0x6D, 0x70, 0x33, 0x2C, 0xEF]] := by decide

/-- G10 -/
theorem test_mp3_plain : [traceOf (exec .mp3Play linked), traceOf (exec .mp3Stop linked), traceOf (exec .mp3Next linked),
    traceOf (exec .mp3Prev linked)] = [[.uartTx [0x7E, 3, 1, 0x82, 0xEF]], [.uartTx [0x7E, 3, 2, 0x83, 0xEF]],
      [.uartTx [0x7E, 3, 3, 0x84, 0xEF]], [.uartTx [0x7E, 3, 4, 0x85, 0xEF]]] := by decide

/-- G11 -/
theorem test_mp3Vol : [traceOf (exec (.mp3Vol 40) linked), traceOf (exec (.mp3Vol (sw (-5))) linked)] =
    [[.uartTx [0x7E, 4, 5, 0x1F, 0xA6, 0xEF]], [.uartTx [0x7E, 4, 5, 0x00, 0x87, 0xEF]]] := by decide

/-- G12 -/
theorem test_mp3Playnum : [traceOf (exec (.mp3Playnum 0) linked), traceOf (exec (.mp3Playnum 1000) linked)] =
    [[.uartTx [0x7E, 4, 6, 0x01, 0x89, 0xEF]], [.uartTx [0x7E, 4, 6, 0xFF, 0x87, 0xEF]]] := by decide

/-- G14 -/
theorem test_mp3Playname : traceOf (exec (.mp3Playname []) linked) = [.uartTx [0x7E, 3, 7, 0x88, 0xEF]] := by decide

/-- G8: 251 bytes are consumed and nothing is sent. -/
theorem test_mp3Send_long : traceOf (exec (.mp3Send 0x10 (List.replicate 251 0)) linked) = [] := by decide +kernel

/-! ## Witnesses: a concrete state and operands that meet each obligation's hypotheses, at the ends of the ranges -/

theorem ex_valid : ex.Valid := by decide +kernel

theorem base_inv : base.Inv :=
  { params := ex_valid
    levels := by decide
    period := by decide
    created := by decide
    uncreated := by decide
    pixPin := by decide
    bufRange := by decide
    bufWf := by decide
    histPins := by decide
    histWf := by decide
    fbPins := by decide
    fbWf := by decide
    noHistory := by decide
    phase := by decide
    mp3Pins := by decide
    mp3Uninit := by decide }

/-- The same state with a command at the port, so that a step runs it. -/
def loaded : State := { base with port := encode (.motor 0 1 5) }

theorem loaded_inv : loaded.Inv :=
  { params := base_inv.params, levels := base_inv.levels, period := base_inv.period, created := base_inv.created,
    uncreated := base_inv.uncreated, pixPin := base_inv.pixPin, bufRange := base_inv.bufRange, bufWf := base_inv.bufWf,
    histPins := base_inv.histPins, histWf := base_inv.histWf, fbPins := base_inv.fbPins, fbWf := base_inv.fbWf,
    noHistory := base_inv.noHistory, phase := base_inv.phase, mp3Pins := base_inv.mp3Pins, mp3Uninit := base_inv.mp3Uninit }

theorem loaded_runs : ∃ t, step loaded = .next t ∧ t ≠ loaded :=
  ⟨_, rfl, fun h => absurd (congrArg State.port h) (by decide)⟩

theorem loaded_lawful : loaded.WiresLawful := fun e he => by simp [loaded, base, State.reset] at he

/-- The longest frame's payload. -/
theorem witness_DecodeOfEncode : (Instr.mp3Send 0x31 (List.replicate 65535 0)).WellFormed ∧ Instr.pwmInit.WellFormed :=
  ⟨le_of_eq List.length_replicate, Nat.zero_le _⟩

theorem witness_PlenAloneEndsCommand : decode ([0x34, 1, 0] ++ List.replicate 21 0) = .command .pixRefresh [] ∧
    decode ([0x13, 1, 0] ++ List.replicate 21 0) = .reservedOpcode 0x13 [] := by decide

/-- `SERVO_PW` with two values of the ignored slot 2 and of the ignored payload. -/
theorem witness_IgnoredFieldsHaveNoEffect : ∃ h k : Header,
    h.plen.toNat = h.payload.length ∧ k.plen.toNat = k.payload.length ∧ h.op = k.op ∧ h ≠ k ∧ h.a0 = k.a0 ∧ h.a1 = k.a1 ∧
    h.op ∉ [0x10, 0x12, 0x20, 0x30, 0x31, 0x32, 0x33, 0x40] ∧ h.op ∉ [0x31, 0x33, 0x40] ∧ h.op ∉ [0x31, 0x33] ∧
    h.op ∉ [0x51, 0x52, 0x59] ∧ decode (h.bytes ++ [0x11]) = .command (.servoPw 3 1500) [0x11] :=
  ⟨mkHeader 0x21 3 1500 0 0 0 [], mkHeader 0x21 3 1500 9 9 9 [1, 2], by decide⟩

theorem witness_ReservedOpcodeIsSilent : ∃ h : Header, h.plen.toNat = h.payload.length ∧
    h.op ∉ [0x10, 0x11, 0x12, 0x20, 0x21, 0x22, 0x23, 0x24, 0x30, 0x31, 0x32, 0x33, 0x34, 0x40,
      0x50, 0x51, 0x52, 0x53, 0x54, 0x55, 0x56, 0x57, 0x58, 0x59] ∧
    ({ base with port := h.bytes ++ [1] } : State).port = h.bytes ++ [1] :=
  ⟨mkHeader 0x5A 1 2 3 4 5 [1, 2, 3], by decide⟩

theorem witness_StepRunsDecodedCommand : ∃ s : State, decode s.port = .command (.servoPw 3 1500) [7] ∧
    Instr.WellFormed (.servoPw 3 1500) ∧ s.port = encode (.servoPw 3 1500) ++ [7] :=
  ⟨{ base with port := encode (.servoPw 3 1500) ++ [7] }, by decide⟩

/-- One byte short of a header; one byte short of a payload. -/
theorem witness_StepWaitsForWholeCommand : (∃ s : State, s.port.length < 23 ∧ s.port.length = 22) ∧
    ∃ s : State, ¬ s.port.length < 23 ∧ s.port.length < 23 + plenField s.port :=
  ⟨⟨{ base with port := List.replicate 22 0 }, by decide⟩, ⟨{ base with port := 0x51 :: 1 :: List.replicate 21 0 }, by decide⟩⟩

theorem witness_PwmCfgSetsConfiguration : base.pwm.init = false := by decide

theorem witness_PwmConfigurationFreezes : (ready.pwm.init = true ∧ ∃ t, step ready = .next t) ∧
    (∃ t, exec (.motor 16 15 5) base = .next t) ∧ 0 ≤ (0 : Word).toInt ∧ (15 : Word).toInt ≤ 15 :=
  ⟨⟨by decide, _, rfl⟩, ⟨_, rfl⟩, by decide, by decide⟩

theorem witness_PwmInitRunsSequence : base.pwm.init = false ∧ (0x91 : Byte) = readAnswer (answering [0x91] []) ∧
    (answering [0x91] []).pwm.init = false ∧ ready.pwm.init = true := by decide

theorem witness_PwmSetchWritesRecord : ready.pwm.init = true ∧ 0 ≤ (0 : Word).toInt ∧ (0 : Word).toInt ≤ 15 ∧
    0 ≤ (15 : Word).toInt ∧ (15 : Word).toInt ≤ 15 := by decide

theorem witness_BadChannelIsSilent : (sw (-1)).toInt < 0 ∧ 15 < (16 : Word).toInt := by decide

theorem witness_LazyInitialisation : base.pwm.init = false ∧ 0 ≤ (0 : Word).toInt ∧ (15 : Word).toInt ≤ 15 := by decide

theorem witness_MotorWritesTwoRecords : ready.pwm.init = true ∧ 1 ≤ ready.pwm.levels ∧ 0 ≤ (0 : Word).toInt ∧ (0 : Word).toInt ≤ 15 ∧
    0 ≤ (15 : Word).toInt ∧ (15 : Word).toInt ≤ 15 ∧
    (-4095 : Int) = max (-((ready.pwm.levels : Int) - 1)) (min (sw (-5000)).toInt ((ready.pwm.levels : Int) - 1)) ∧
    (0 : Int) = max (-((ready.pwm.levels : Int) - 1)) (min (0 : Word).toInt ((ready.pwm.levels : Int) - 1)) := by decide

theorem witness_MotorDropsBadChannelAlone : 2 ≤ base.pwm.levels ∧ base.pwm.levels ≤ 65536 ∧
    (4095 : Int) = max (-((base.pwm.levels : Int) - 1)) (min (5000 : Word).toInt ((base.pwm.levels : Int) - 1)) ∧
    15 < (16 : Word).toInt ∧ (sw (-1)).toInt < 0 := by decide

theorem witness_MotorLastWrittenTicks : ∃ f r : Fin 16, (0 : Word).toInt = (f.val : Int) ∧ (15 : Word).toInt = (r.val : Int) ∧
    channelReg base.params f ≠ channelReg base.params r ∧ 2 ≤ base.pwm.levels ∧ base.pwm.levels ≤ 65536 :=
  ⟨0, 15, by decide⟩

/-- With a driven channel in the trace, and a reversal. -/
theorem witness_NoShootThrough : ∃ (s t : State) (f r : Fin 16), (0 : Word).toInt = (f.val : Int) ∧ (1 : Word).toInt = (r.val : Int) ∧
    channelReg s.params f ≠ channelReg s.params r ∧ 1 ≤ s.pwm.levels ∧ atMostOneDriven s.params s.pwm.addr f r s.trace ∧
    lastWrittenTick s.params s.pwm.addr f s.trace = some 5 ∧ exec (.motor 0 1 (sw (-5))) s = .next t :=
  ⟨after base (exec (.motor 0 1 5) ready), _, 0, 1, by decide, by decide, by decide, by decide, .inr (by decide), by decide, rfl⟩

/-- Channel 0 driven at 5 and channel 1 at 0, with a command at the port. -/
def driven (i : Instr) : State := { after base (exec (.motor 0 1 5) ready) with port := encode i }

/-- A reversal of the pair, and a command that writes another channel. -/
theorem witness_NoShootThroughEveryStep : ∀ i ∈ [.motor 0 1 (sw (-5)), .pwmSetch 2 0 7],
    channelReg (driven i).params 0 ≠ channelReg (driven i).params 1 ∧
    (∀ j rest, decode (driven i).port = .command j rest → PairDiscipline (driven i).params 0 1 j) ∧
    atMostOneDriven (driven i).params (driven i).pwm.addr 0 1 (driven i).trace ∧
    lastWrittenTick (driven i).params (driven i).pwm.addr 0 (driven i).trace = some 5 ∧
    (∃ t, step (driven i) = .next t) ∧ (driven i).WiresLawful := by
  have lawful : ∀ i, (driven i).WiresLawful := fun i e he => by
    have h : e = .i2cWrite 0x40 [0x0A, 0, 0, 0, 0] ∨ e = .i2cWrite 0x40 [0x06, 0, 0, 5, 0] := by
      rw [show (driven i).trace = [.i2cWrite 0x40 [0x0A, 0, 0, 0, 0], .i2cWrite 0x40 [0x06, 0, 0, 5, 0]] from rfl] at he
      simpa using he
    rcases h with rfl | rfl <;> exact ⟨rfl, rfl, .inr rfl⟩
  intro i hi
  simp only [List.mem_cons, List.not_mem_nil, or_false] at hi
  rcases hi with rfl | rfl
  · refine ⟨by decide, fun j rest h => ?_, .inr (by decide), by decide, ⟨_, rfl⟩, lawful _⟩
    rw [show decode (driven (.motor 0 1 (sw (-5)))).port = .command (.motor 0 1 (sw (-5))) [] by decide] at h
    cases h
    exact .inl ⟨_, _, _, rfl, by decide, by decide⟩
  · refine ⟨by decide, fun j rest h => ?_, .inr (by decide), by decide, ⟨_, rfl⟩, lawful _⟩
    rw [show decode (driven (.pwmSetch 2 0 7)).port = .command (.pwmSetch 2 0 7) [] by decide] at h
    cases h
    exact .inr (by simp only [pwmChannels, List.mem_singleton, forall_eq]; decide)

theorem witness_ServoPwWritesTick : ready.pwm.init = true ∧ 2 ≤ ready.pwm.levels ∧ 1 ≤ ready.pwm.period ∧ 0 ≤ (0 : Word).toInt ∧
    (15 : Word).toInt ≤ 15 := by decide

theorem witness_TickConversionInIntegers : (0 : Int) < 1 ∧ (2 : Nat) ≤ 2 ∧ (1 : Nat) ≤ 1 := by decide

theorem witness_ServoCsWritesTick : ∃ q : Rat, ready.pwm.init = true ∧ ready.params.Valid ∧ 0 ≤ (0 : Word).toInt ∧
    (15 : Word).toInt ≤ 15 ∧
    q = ready.params.csNeutralUs + ((50 : Word).toInt : Rat) * ready.params.csDeflectUs / (ready.params.csSpeedMax : Rat) :=
  ⟨_, by decide, ex_valid, by decide, by decide, rfl⟩

theorem witness_ServoAngWritesTick : ∃ (n m : Int) (q : Rat), ready.pwm.init = true ∧ ready.params.Valid ∧ 0 ≤ (0 : Word).toInt ∧
    (15 : Word).toInt ≤ 15 ∧ n = ((270 : Word).toInt + 45) % 360 ∧ m = (if n ≤ 270 then n else if n < 315 then 270 else 0) ∧ m = 0 ∧
    q = ready.params.angPw0Us + (m : Rat) * (ready.params.angPw270Us - ready.params.angPw0Us) / 270 :=
  ⟨315, 0, _, by decide, ex_valid, by decide, by decide, by decide, by decide, rfl, rfl⟩

/-- The ends of the three rows of the table. -/
theorem witness_AngleSnapTable : (-45 : Int) ≤ -45 ∧ (225 : Int) ≤ 225 ∧ (225 : Int) < 226 ∧ (269 : Int) < 270 ∧ (270 : Int) ≤ 270 ∧
    (314 : Int) < 315 := by decide

theorem witness_ServoWideWritesTick : ∃ (n k : Int) (q : Rat), ready.pwm.init = true ∧ ready.params.Valid ∧ 0 ≤ (0 : Word).toInt ∧
    (15 : Word).toInt ≤ 15 ∧ 0 ≤ n ∧ n < 360 ∧ (sw (-1)).toInt = n + 360 * k ∧
    q = ready.params.widePw0Us + (n : Rat) * (ready.params.widePw360Us - ready.params.widePw0Us) / 360 :=
  ⟨359, -1, _, by decide, ex_valid, by decide, by decide, by decide, by decide, by decide, rfl⟩

theorem witness_PixInitCreatesMatrix : base.pix.init = false ∧ 0 ≤ (0 : Word).toInt ∧ (15 : Word).toInt < (base.params.nPins : Int) := by
  decide

theorem witness_PixInitOtherwiseSilent : (matrix 1 1).pix.init = true ∧ (sw (-1)).toInt < 0 ∧ (base.params.nPins : Int) ≤ (16 : Word).toInt := by
  decide

theorem witness_PixSetWritesOnePixel : base.pix.init = false ∧ (matrix 1 255).pix.init = true ∧ 1 ≤ (matrix 1 255).pix.rows ∧
    1 ≤ (matrix 1 255).pix.cols ∧ (matrix 1 255).pix.buf.wf ∧
    ((0 : Nat) : Int) = max 0 (min (9 : Word).toInt (((matrix 1 255).pix.rows : Int) - 1)) ∧
    ((254 : Nat) : Int) = max 0 (min (300 : Word).toInt (((matrix 1 255).pix.cols : Int) - 1)) ∧
    762 = (0 * (matrix 1 255).pix.cols + 254) * 3 := by decide

theorem witness_PixFillWritesEveryPixel : base.pix.init = false ∧ (matrix 2 3).pix.init = true ∧ 1 ≤ (matrix 2 3).pix.rows ∧
    1 ≤ (matrix 2 3).pix.cols ∧ (matrix 2 3).pix.buf.wf ∧ 5 < (matrix 2 3).pix.rows * (matrix 2 3).pix.cols := by decide

theorem witness_PixSetsIsSerpentine : base.pix.init = false ∧ (matrix 7 8).pix.rows ≠ 8 ∧ (matrix 8 9).pix.cols ≠ 8 ∧
    (matrix 8 8).pix.init = true ∧ (matrix 8 8).pix.rows = 8 ∧ (matrix 8 8).pix.cols = 8 ∧
    ((7 : Nat) : Int) = max 0 (min (8 : Word).toInt 7) ∧ ((0 : Nat) : Int) = max 0 (min (sw (-1)).toInt 7) ∧
    (7 : Nat) = (if 0 % 2 = 0 then 7 else 7 - 7) := by decide

theorem witness_PixRefreshSendsWholeBuffer : base.pix.init = false ∧ (matrix 1 1).pix.init = true := by decide

theorem witness_PixelByteOrderExample : base.pix.init = false ∧ 0 ≤ (0 : Word).toInt ∧ (0 : Word).toInt < (base.params.nPins : Int) ∧
    ∃ t, exec (.pixInit 1 1 0) base = .next t := ⟨by decide, by decide, by decide, _, rfl⟩

/-- The pull modes by number (D22), as the statements on `USR_MEASURE` write them. -/
abbrev PullNumber (mode : Word) (m : PullMode) : Prop :=
  (mode.toInt = 0 ∧ m = .none) ∨ (mode.toInt = 1 ∧ m = .down) ∨ (mode.toInt = 2 ∧ m = .up)

theorem witness_pullNumbers : PullNumber 0 .none ∧ PullNumber 1 .down ∧ PullNumber 2 .up := by decide

theorem witness_MeasureWithEcho : (2 : Word).toInt = ((2 : Nat) : Int) ∧ 2 < (answering [] [25000]).params.nPins ∧
    PullNumber 2 .up ∧ (25000 : PulseWidth) = pulseAnswer (answering [] [25000]) ∧ (25000 : PulseWidth) ≠ 0 := by
  decide

theorem witness_MeasureWithEchoOnRetry : (15 : Word).toInt = ((15 : Nat) : Int) ∧ 15 < (answering [] [0, 1]).params.nPins ∧
    PullNumber 0 .none ∧ pulseAnswer (answering [] [0, 1]) = 0 ∧
    (1 : PulseWidth) = pulseAnswer { answering [] [0, 1] with env := (answering [] [0, 1]).env.afterPulse } ∧ (1 : PulseWidth) ≠ 0 := by
  decide

theorem witness_MeasureTimedOut : (0 : Word).toInt = ((0 : Nat) : Int) ∧ 0 < (answering [] [0, 0]).params.nPins ∧
    PullNumber 1 .down ∧ pulseAnswer (answering [] [0, 0]) = 0 ∧
    pulseAnswer { answering [] [0, 0] with env := (answering [] [0, 0]).env.afterPulse } = 0 := by decide

theorem witness_MeasureBadSelector : (sw (-1)).toInt < 0 ∧ (base.params.nPins : Int) ≤ (16 : Word).toInt ∧ 2 < (3 : Word).toInt := by decide

/-- A success at once, a success on the retry, a time-out, each on pin 2 with another pin to compare. -/
theorem witness_FallbackFlagAndHistory : ∀ pulses ∈ [[580, 7], [0, 580], [0, 0]],
    (tableWf 0 (ranger 1160 false pulses).usr.hist ∧ tableWf false (ranger 1160 false pulses).usr.fbUsed ∧
      (2 : Word).toInt = ((2 : Nat) : Int) ∧ 2 < (ranger 1160 false pulses).params.nPins ∧ PullNumber 0 .none ∧
      pulses.head? = some (pulseAnswer (ranger 1160 false pulses))) ∧
    (∃ second, second = pulseAnswer { ranger 1160 false pulses with env := (ranger 1160 false pulses).env.afterPulse }) ∧
    ∃ t, exec (.usrMeasure 2 0 1 58) (ranger 1160 false pulses) = .next t := by
  intro pulses h
  refine ⟨?_, ⟨_, rfl⟩, _, rfl⟩
  simp only [List.mem_cons, List.not_mem_nil, or_false] at h
  rcases h with rfl | rfl | rfl <;> decide

/-- Two calls, four readings. -/
theorem witness_FallbackAlternates : tableWf false (ranger 1160 false [0, 0, 0, 0]).usr.fbUsed ∧ (2 : Word).toInt = ((2 : Nat) : Int) ∧
    2 < (ranger 1160 false [0, 0, 0, 0]).params.nPins ∧ PullNumber 0 .none ∧
    (1 : Int) = max 0 (min (1 : Word).toInt 65535) ∧ (58 : Int) = max 1 (min (58 : Word).toInt 65535) ∧
    NoAnswerFor (ranger 1160 false [0, 0, 0, 0]) (2 * 2) ∧ histAt (ranger 1160 false [0, 0, 0, 0]) 2 = 1160 ∧
    fbUsedAt (ranger 1160 false [0, 0, 0, 0]) 2 = false := by
  refine ⟨by decide, by decide, by decide, by decide, by decide, by decide, ?_, by decide, by decide⟩
  show ∀ j, j < 4 → pulseAnswer { ranger 1160 false [0, 0, 0, 0] with env := Env.afterPulse^[j] (ranger 1160 false [0, 0, 0, 0]).env } = 0
  decide

theorem witness_Mp3InitOnce : base.mp3.init = false ∧ (14 : Word).toInt = ((14 : Nat) : Int) ∧ (0 : Word).toInt = ((0 : Nat) : Int) ∧
    14 < base.params.nPins ∧ 0 < base.params.nPins ∧ linked.mp3.init = true ∧ (sw (-1)).toInt < 0 ∧
    (base.params.nPins : Int) ≤ (16 : Word).toInt := by decide

theorem witness_PayloadCommandsTransmitFrame : linked.mp3.init = true ∧ (List.replicate 250 (0xFF : Byte)).length ≤ 250 :=
  ⟨rfl, le_of_eq List.length_replicate⟩

theorem witness_SendingFailsSilently : base.mp3.init = false ∧ 250 < (List.replicate 251 (0 : Byte)).length :=
  ⟨rfl, Nat.lt_of_lt_of_eq (by decide : 250 < 251) List.length_replicate.symm⟩

theorem witness_PlainCommandsTransmitFrame : linked.mp3.init = true := by decide

theorem witness_NumberCommandsTransmitFrame : linked.mp3.init = true ∧ ((31 : Nat) : Int) = max 0 (min (40 : Word).toInt 31) ∧
    ((40 : Nat) : Int) = max 1 (min (40 : Word).toInt 255) := by decide

theorem witness_HighLevelCommandsAreSends : ((0 : Nat) : Int) = max 0 (min (sw (-5)).toInt 31) ∧
    ((1 : Nat) : Int) = max 1 (min (sw (-5)).toInt 255) := by decide

theorem witness_FrameLayout : (List.replicate 250 (0xFF : Byte)).length ≤ 250 :=
  le_of_eq List.length_replicate

theorem witness_ChecksumExample : linked.mp3.init = true := by decide

theorem witness_StepKeepsInvariant : loaded.Inv ∧ ∃ t, step loaded = .next t ∧ t ≠ loaded := ⟨loaded_inv, loaded_runs⟩

theorem witness_StepKeepsWiresLawful : loaded.WiresLawful ∧ ∃ t, step loaded = .next t ∧ t ≠ loaded := ⟨loaded_lawful, loaded_runs⟩

theorem witness_FlagsAreWriteOnce : (∃ t, step ready = .next t) ∧ (∃ t, step (matrix 8 8) = .next t) ∧ (∃ t, step linked = .next t) ∧
    ready.pwm.init = true ∧ (matrix 8 8).pix.init = true ∧ linked.mp3.init = true :=
  ⟨⟨_, rfl⟩, ⟨_, rfl⟩, ⟨_, rfl⟩, by decide, by decide, by decide⟩

theorem witness_TraceOnlyGrows : ∃ t, step loaded = .next t ∧ t ≠ loaded := loaded_runs

theorem witness_OnlyMeasureWritesRes : (∀ pin mode mul dv, Instr.pwmInit ≠ .usrMeasure pin mode mul dv) ∧
    ∃ t, exec .pwmInit base = .next t := ⟨by simp, _, rfl⟩

theorem witness_PwmCommandsFrame : Instr.pwmInit ∈ [.pwmCfg 1 2 3, .pwmInit, .pwmSetch 1 2 3, .motor 1 2 3, .servoPw 1 2, .servoCs 1 2,
    .servoAng 1 2, .servoWide 1 2] ∧ ∃ t, exec .pwmInit base = .next t := ⟨by decide, _, rfl⟩

theorem witness_PixelCommandsFrame : (matrix 8 8).pix.buf.wf ∧
    Instr.pixSets 7 1 3 4 5 ∈ [.pixInit 7 1 3, .pixSet 7 1 3 4 5, .pixFill 3 4 5, .pixSets 7 1 3 4 5, .pixRefresh] ∧
    (∃ t, exec (.pixSets 7 1 3 4 5) (matrix 8 8) = .next t) ∧
    ((24 : Nat) : Int) = pixelOffset (matrix 8 8) (serpentine (7 : Word).toInt (1 : Word).toInt).1
      (serpentine (7 : Word).toInt (1 : Word).toInt).2 ∧
    ((171 : Nat) : Int) = pixelOffset (matrix 8 8) (7 : Word).toInt (1 : Word).toInt ∧
    fbSize (matrix 8 8) ≤ 192 := ⟨by decide, by decide, ⟨_, rfl⟩, by decide, by decide, by decide⟩

theorem witness_MeasureFrame : ∃ t, exec (.usrMeasure 2 0 1 58) (ranger 0 false [1160]) = .next t := ⟨_, rfl⟩

theorem witness_Mp3CommandsFrame : Instr.mp3Play ∈ [.mp3Init 1 2, .mp3Send 1 [3], .mp3Sendstr 1 [3], .mp3Play, .mp3Stop, .mp3Next, .mp3Prev,
    .mp3Vol 1, .mp3Playnum 1, .mp3Playname [3]] ∧ ∃ t, exec .mp3Play linked = .next t := ⟨by decide, _, rfl⟩

theorem witness_PixelUnitIndependent : ∃ s s' t : State, Instr.pixRefresh ∈ [.pixInit 1 2 3, .pixSet 1 2 3 4 5, .pixFill 3 4 5,
    .pixSets 1 2 3 4 5, .pixRefresh] ∧ s' ≠ s ∧ s'.pix = s.pix ∧ s'.params = s.params ∧ exec .pixRefresh s = .next t :=
  ⟨matrix 8 8, { matrix 8 8 with res := 9 }, _, by decide, fun h => absurd (congrArg State.res h) (by decide), rfl, rfl, rfl⟩

end Sys2Proof.Tests
end

section
/-!
PROOF. The byte order of the framebuffer (spec/20_memory.md): the bytes a refresh reads back after one pixel write, and the document's
example (R55).
-/

namespace Sys2Proof.Machine

/-! ## The framebuffer's example -/

/-- A block of bytes reads back as it was stored, lowest offset first. -/
theorem Memory.readBytes_writeBytes {m : Memory} (h : m.wf) (a : Nat) (bs : List Byte) :
    (m.writeBytes a bs).readBytes a bs.length = bs := by
  refine List.ext_getElem (Memory.readBytes_length ..) fun k _ hk => ?_
  simp [Memory.readBytes, Memory.read_writeBytes h, hk]

/-- `PIX_INIT` on a matrix not yet created, with a mapped pin: the meaning's sequence, step by step (R150). -/
theorem exec_pixInit_of_mapped {s : State} {pin : Word} {p : Nat} (hi : s.pix.init = false) (hp : pinOf s.params pin.toInt = some p)
    (rows columns : Word) : exec (.pixInit rows columns pin) s =
      .next (setPixInit (ledRefresh (ledRefresh (createMatrix rows.toInt columns.toInt p s)))) := by
  change execPixInit rows columns pin s = _
  simp only [execPixInit, hi, hp, Bool.false_eq_true, if_false]

/-- `PIX_SET` on a created matrix is the pixel write of R152. -/
theorem exec_pixSet_of_init {s : State} (hi : s.pix.init = true) (y x r g b : Word) :
    exec (.pixSet y x r g b) s = .next (setPixel y.toInt x.toInt r.toInt g.toInt b.toInt s) := by
  change execPixSet y x r g b s = _
  rw [execPixSet, if_pos hi]

/-- On a 1 by 1 matrix every pixel write, whatever its coordinates, leaves exactly its three bytes as the whole buffer. -/
theorem fbBytes_setPixel_of_single {s : State} (hr : s.pix.rows = 1) (hc : s.pix.cols = 1) (hw : s.pix.buf.wf) (y x r g b : Int) :
    fbBytes (setPixel y x r g b s) = pixelBytes r g b := by
  have hsize : fbSize s = 3 := by rw [fbSize, hr, hc]
  obtain ⟨h0, h3, -⟩ := pixelOffset_range hr.ge hc.ge y x
  have hoffset : (pixelOffset s y x).toNat = 0 := by omega
  rw [fbBytes, (setPixel_footprint y x r g b s).fbSize, hsize, setPixel_of_created hr.ge hc.ge]
  simp only [hoffset]
  exact Memory.readBytes_writeBytes hw 0 (pixelBytes r g b)

/-- Settles O31: the fresh 1 by 1 buffer holds one pixel, so the whole buffer is the triple green, red, blue of the write. -/
theorem pixelByteOrderExample : Obligations.PixelByteOrderExample := by
  unfold Obligations.PixelByteOrderExample
  intro s t pin hi h0 hn ht
  have hp : pinOf s.params pin.toInt = some pin.toInt.toNat := pinOf_eq_some.2 ⟨by omega, by omega⟩
  rw [exec_pixInit_of_mapped hi hp] at ht
  obtain rfl := Host.Outcome.next.inj ht
  refine ⟨_, exec_pixSet_of_init rfl 0 0 10 20 30, ?_⟩
  have hbytes : pixelBytes (10 : Word).toInt (20 : Word).toInt (30 : Word).toInt = [20, 10, 30] := by decide
  rw [fbBytes_setPixel_of_single rfl rfl Memory.wf_nil, hbytes]

end Sys2Proof.Machine
end

section
/-!
PROOF. The MP3 frame (spec/30_encoding.md): its length, length byte and checksum (R79), and the document's checksum example (R80).
-/

namespace Sys2Proof.Machine

/-! ## The frame's layout -/

/-- A frame is its payload with three bytes before it and two after it (R79). -/
@[simp] theorem length_frame (c : Byte) (p : List Byte) : (frame c p).length = p.length + 5 := by
  simp only [frame, List.length_append, List.length_cons, List.length_nil]; omega

/-- The length byte of a payload that `SendFrame` accepts does not wrap around (R191). -/
theorem lengthByte_toNat {n : Nat} (h : n ≤ mp3MaxPayload) : (BitVec.ofNat 8 (n + 3)).toNat = n + 3 := by
  simp only [mp3MaxPayload] at h
  rw [BitVec.toNat_ofNat, Nat.mod_eq_of_lt (by omega)]

/-- The checksum byte is the sum of R79 modulo 256, the start byte included and the end byte not. -/
theorem frameChecksum_toNat (c : Byte) (p : List Byte) :
    (frameChecksum c p).toNat = (0x7E + (p.length + 3) + c.toNat + (p.map BitVec.toNat).sum) % 256 :=
  BitVec.toNat_ofNat ..

/-- Settles O45: the two bytes are the length byte, which does not wrap around at 250 payload bytes or fewer, and the checksum. -/
theorem frameLayout : Obligations.FrameLayout := by
  unfold Obligations.FrameLayout
  intro c p hp
  have hlength : (BitVec.ofNat 8 (p.length + 3)).toNat = p.length + 3 := lengthByte_toNat hp
  refine ⟨BitVec.ofNat 8 (p.length + 3), frameChecksum c p, rfl, length_frame c p, hlength, by omega, by omega, ?_⟩
  rw [hlength, frameChecksum_toNat]

/-! ## The checksum example -/

/-- `MP3_SEND` on an initialised link transmits the frame of its command byte and a payload of at most 250 bytes (R192). -/
theorem exec_mp3Send_of_ready {s : State} {p : List Byte} (hi : s.mp3.init = true) (hp : p.length ≤ 250) (command : Word) :
    exec (.mp3Send command p) s = .next (emit (.uartTx (frame (lo8 command.toInt) p)) s) := by
  change execMp3Send command p s = _
  rw [execMp3Send, sendFrame_of_ready hi hp]

/-- Settles O46: the command transmits one frame, whose five bytes are closed. -/
theorem checksumExample : Obligations.ChecksumExample := by
  unfold Obligations.ChecksumExample
  intro s hi
  have hframe : frame (lo8 (0xAA : Word).toInt) [] = [0x7E, 0x03, 0xAA, 0x2B, 0xEF] := by decide
  rw [exec_mp3Send_of_ready (p := []) hi (Nat.zero_le 250), hframe, emit]

end Sys2Proof.Machine
end

section
/-!
PROOF. The block raises no exception (spec/60_exceptions.md R220): every command and every step answers a next state, and either one only
adds events at the end of the trace (spec/20_memory.md section 4).
-/

namespace Sys2Proof.Machine

/-! ## A next state -/

/-- A meaning that chooses between two next states answers a next state. -/
theorem ite_next_completes (c : Prop) [Decidable c] (s t : State) : ∃ u, (if c then .next s else .next t : Result) = .next u :=
  ⟨if c then s else t, (apply_ite Host.Outcome.next c s t).symm⟩

/-- No command faults or is refused: the meaning of each is a next state, or a choice between two. -/
theorem exec_completes (i : Instr) (s : State) : ∃ t, exec i s = .next t := by
  cases i
  case pwmCfg | pwmInit | pixInit | pixRefresh | mp3Init => exact ite_next_completes ..
  all_goals exact ⟨_, rfl⟩

/-- A step runs a command or ends in the state it has taken from the port. -/
theorem step_completes (s : State) : ∃ t, step s = .next t := by
  unfold step
  cases takeCommand s with
  | run i t => exact exec_completes i t
  | nothing t => exact ⟨t, rfl⟩

/-! ## Events at the end of the trace -/

/-- A measurement, too, only adds events at the end of the trace. -/
theorem measurePin_trace (p : Nat) (m : PullMode) (mul dv : Int) (s : State) :
    ∃ events, (measurePin p m mul dv s).trace = s.trace ++ events := by
  obtain ⟨hist, fb, last, env, events, he, -⟩ := measurePin_eq p m mul dv s
  exact ⟨events, by rw [he]⟩

theorem SendFootprint.trace {s t : State} (h : SendFootprint s t) : ∃ events, t.trace = s.trace ++ events := by
  obtain rfl | ⟨-, c, p, -, rfl⟩ := h
  · exact ⟨[], (List.append_nil _).symm⟩
  · exact ⟨_, rfl⟩

/-- Whatever a command has done, the trace it found is the beginning of the trace it leaves. -/
theorem ExecShape.trace {s t : State} (h : ExecShape s t) : ∃ events, t.trace = s.trace ++ events := by
  cases h with
  | cfg _ _ e => exact ⟨[], by rw [e, List.append_nil]⟩
  | pwm _ h =>
    obtain ⟨init, env, events, rfl, -⟩ := h
    exact ⟨events, rfl⟩
  | pixInit _ _ _ _ _ _ _ e => exact ⟨_, congrArg State.trace e⟩
  | buf _ h =>
    obtain ⟨e, -⟩ := h
    exact ⟨[], by rw [e, List.append_nil]⟩
  | refresh => exact ⟨_, rfl⟩
  | badMeasure => exact ⟨[], (List.append_nil _).symm⟩
  | measure p m mul dv => exact measurePin_trace p m mul dv s
  | mp3Init => exact ⟨_, rfl⟩
  | send _ h => exact h.trace

/-- A step that runs no command emits nothing; one that runs a command emits what the command does. -/
theorem step_trace {s t : State} (h : step s = .next t) : ∃ events, t.trace = s.trace ++ events := by
  obtain rfl | ⟨-, -, e⟩ | ⟨i, -, rest, -, -, -, hexec⟩ := step_cases h
  · exact ⟨[], (List.append_nil _).symm⟩
  · exact ⟨[], by rw [e, List.append_nil]⟩
  · exact (exec_shape hexec).trace

/-! ## No exception -/

/-- Settles O50: the step and every command answer a next state, and what an answered next state adds to the trace follows from the
inversions of `Laws/Exec.lean`. -/
theorem everyCommandHasNextState : Obligations.EveryCommandHasNextState := by
  unfold Obligations.EveryCommandHasNextState
  refine fun s => ⟨?_, fun i => ?_⟩
  · obtain ⟨t, h⟩ := step_completes s
    obtain ⟨events, he⟩ := step_trace h
    exact ⟨t, events, h, he⟩
  · obtain ⟨t, h⟩ := exec_completes i s
    obtain ⟨events, he⟩ := (exec_shape h).trace
    exact ⟨t, events, h, he⟩

end Sys2Proof.Machine
end

section
/-!
PROOF. The configuration freeze of the PWM driver (spec/70_reset_and_hazards.md R262): no step changes an initialised PWM unit, and an
effective channel write sets its flag and nothing else of it.
-/

namespace Sys2Proof.Machine

/-! ## Steps of an initialised driver -/

/-- `PWM_CFG` on an initialised driver does nothing (R100). -/
theorem exec_pwmCfg_of_init {s : State} (hi : s.pwm.init = true) (addr levels period : Word) :
    exec (.pwmCfg addr levels period) s = .next s := by
  change execPwmCfg addr levels period s = _
  rw [execPwmCfg, if_pos hi]

/-- Of the PWM unit only the flag can change, and it is never cleared. -/
theorem PwmFootprint.pwm_of_init {s t : State} (h : PwmFootprint s t) (hi : s.pwm.init = true) : t.pwm = s.pwm := by
  obtain ⟨init, env, events, rfl, hkept, -⟩ := h
  simp only [hkept hi, ← hi]

@[simp] theorem measurePin_pwm (p : Nat) (m : PullMode) (mul dv : Int) (s : State) : (measurePin p m mul dv s).pwm = s.pwm := by
  obtain ⟨hist, fb, last, env, events, he, -⟩ := measurePin_eq p m mul dv s
  rw [he]

theorem SendFootprint.pwm {s t : State} (h : SendFootprint s t) : t.pwm = s.pwm := by
  obtain rfl | ⟨-, c, p, -, rfl⟩ := h <;> rfl

/-- The configuration is written before initialisation only, and the commands of the other units leave the PWM unit alone. -/
theorem ExecShape.pwm_of_init {s t : State} (h : ExecShape s t) (hi : s.pwm.init = true) : t.pwm = s.pwm := by
  cases h with
  | cfg _ hnot => exact absurd hi (by simp [hnot])
  | pwm _ h => exact h.pwm_of_init hi
  | pixInit _ _ _ _ _ _ _ e => rw [e]
  | buf _ h =>
    obtain ⟨e, -⟩ := h
    rw [e]
  | refresh | badMeasure | mp3Init => rfl
  | measure p m mul dv => exact measurePin_pwm p m mul dv s
  | send _ h => exact h.pwm

/-- A step that runs no command changes the port at most; one that runs a command finds the PWM unit as it stood. -/
theorem step_pwm_of_init {s t : State} (hi : s.pwm.init = true) (h : step s = .next t) : t.pwm = s.pwm := by
  obtain rfl | ⟨-, -, e⟩ | ⟨i, -, rest, -, -, -, hexec⟩ := step_cases h
  · rfl
  · rw [e]
  · exact (exec_shape hexec).pwm_of_init hi

/-! ## Channel writes -/

@[simp] theorem ensurePwmInit_pwm (s : State) : (ensurePwmInit s).pwm = { s.pwm with init := true } := by
  obtain ⟨env, events, he, -⟩ := ensurePwmInit_eq s
  rw [he]

/-- A channel write initialises the driver exactly when its channel is in [0, 15], and keeps the configuration (R104, R224). -/
@[simp] theorem setChannel_pwm (c on off : Int) (s : State) :
    (setChannel c on off s).pwm = { s.pwm with init := s.pwm.init || (channelOf c).isSome } := by
  cases h : channelOf c with
  | none => simp [setChannel, h]
  | some ch => simp [setChannel, h]

/-- `MOTOR` initialises the driver when either of its channels is in [0, 15], whichever of the two it writes first (R106, R120). -/
theorem exec_motor_pwm {f r speed : Word} {s t : State} (h : exec (.motor f r speed) s = .next t) :
    t.pwm = { s.pwm with init := s.pwm.init || (channelOf f.toInt).isSome || (channelOf r.toInt).isSome } := by
  obtain rfl := Host.Outcome.next.inj h
  split
  · simp [Bool.or_right_comm]
  · simp

/-- Settles O9: an initialised PWM unit is kept by every shape a step can have; each of the effective commands writes a channel in
[0, 15], and `MOTOR` writes a second one, effective or not. -/
theorem pwmConfigurationFreezes : Obligations.PwmConfigurationFreezes := by
  unfold Obligations.PwmConfigurationFreezes
  refine fun s => ⟨fun hi => ⟨fun t => step_pwm_of_init hi, exec_pwmCfg_of_init hi⟩, fun i channel a b t h0 h15 hmem h => ?_⟩
  have hsome : (channelOf channel.toInt).isSome = true := by rw [channelOf_of_mem ⟨h0, h15⟩, Option.isSome_some]
  have hwrite (on off : Int) : (setChannel channel.toInt on off s).pwm = { s.pwm with init := true } := by
    rw [setChannel_pwm, hsome, Bool.or_true]
  simp only [List.mem_cons, List.not_mem_nil, or_false] at hmem
  obtain rfl | rfl | rfl | hservo := hmem
  · obtain rfl := Host.Outcome.next.inj h
    exact hwrite ..
  · rw [exec_motor_pwm h, hsome, Bool.or_true, Bool.true_or]
  · rw [exec_motor_pwm h, hsome, Bool.or_true]
  · obtain rfl | rfl | rfl | rfl := hservo <;> (obtain rfl := Host.Outcome.next.inj h; exact hwrite ..)

end Sys2Proof.Machine
end

section
/-!
PROOF. The command word (spec/30_encoding.md sections 1, 3 and 4): what the encoder writes the decoder reads back, where a command ends,
which fields it reads; and the step that takes the command from the port (spec/70_reset_and_hazards.md section 3).
-/

namespace Sys2Proof

open Sys2Proof.Machine

/-! ## Encoder and decoder -/

/-- The header the encoder writes for a command names that command. -/
@[simp] theorem headerOf_instr (i : Instr) : (headerOf i).instr = some i := by
  cases i <;> rfl

theorem decode_encode {i : Instr} (h : i.WellFormed) (rest : List Byte) : decode (encode i ++ rest) = .command i rest :=
  decode_bytes_of_some (headerOf_plen h) (headerOf_instr i) rest

/-- Settles O1: the encoder's header carries its payload's length in `plen`, so it is read back whole, and it names the command. -/
theorem decodeOfEncode : Obligations.DecodeOfEncode := by
  unfold Obligations.DecodeOfEncode
  exact fun _ rest h => decode_encode h rest

/-! ## The end of a command -/

/-- With 23 bytes or more at the port only payload bytes can be missing from a whole word. -/
theorem parse_of_length {bs : List Byte} (h : 23 ≤ bs.length) : ∃ tail : List Byte, bs.length = 23 + tail.length ∧
    (parse bs = none ↔ splitExactly (plenField bs) tail = none) := by
  rcases bs with _ | ⟨_, _ | ⟨p0, _ | ⟨p1, _ | ⟨_, _ | ⟨_, _ | ⟨_, _ | ⟨_, _ | ⟨_, _ | ⟨_, _ | ⟨_, _ | ⟨_, _ | ⟨_, _ | ⟨_, _ |
    ⟨_, _ | ⟨_, _ | ⟨_, _ | ⟨_, _ | ⟨_, _ | ⟨_, _ | ⟨_, _ | ⟨_, _ | ⟨_, _ | ⟨_, tail⟩⟩⟩⟩⟩⟩⟩⟩⟩⟩⟩⟩⟩⟩⟩⟩⟩⟩⟩⟩⟩⟩⟩
  case cons =>
    refine ⟨tail, by simp only [List.length_cons]; omega, ?_⟩
    simp only [parse, plenField, List.getD_cons_succ, List.getD_cons_zero, ← le16_toNat]
    split <;> simp [*]
  all_goals simp at h

/-- No word is read exactly where fewer bytes stand at the port than the header, or than the header and its `plen` payload bytes. -/
theorem parse_eq_none {bs : List Byte} : parse bs = none ↔ bs.length < 23 ∨ bs.length < 23 + plenField bs := by
  by_cases h : bs.length < 23
  · simp [parse_short h, h]
  · obtain ⟨tail, hlen, hparse⟩ := parse_of_length (Nat.le_of_not_lt h)
    rw [hparse, splitExactly_eq_none]
    omega

theorem decode_eq_incomplete {bs : List Byte} : decode bs = .incomplete ↔ bs.length < 23 ∨ bs.length < 23 + plenField bs := by
  rw [← parse_eq_none]
  cases h : parse bs with
  | none => simp [decode, h]
  | some p => cases hi : p.1.instr <;> simp [decode, h, hi]

/-- A whole word takes its 23 header bytes and `plen` payload bytes from the port. -/
theorem bytes_append_extent {h : Header} (hl : h.plen.toNat = h.payload.length) (rest : List Byte) :
    23 + plenField (h.bytes ++ rest) ≤ (h.bytes ++ rest).length ∧ rest = (h.bytes ++ rest).drop (23 + plenField (h.bytes ++ rest)) := by
  rw [plenField_bytes, hl, ← Header.bytes_length]
  exact ⟨by simp, by simp⟩

/-- Settles O2: what is decoded is a header's bytes and what follows them, and none is where the port is too short for that. -/
theorem plenAloneEndsCommand : Obligations.PlenAloneEndsCommand := by
  unfold Obligations.PlenAloneEndsCommand
  refine fun bs => ⟨fun i rest e => ?_, fun op rest e => ?_, decode_eq_incomplete⟩
  · obtain ⟨h, rfl, hl, hi⟩ := decode_command e
    obtain ⟨hle, hrest⟩ := bytes_append_extent hl rest
    have hp : h.payload.length ≤ 65535 := by have := h.plen.isLt; omega
    exact ⟨hle, hrest, Header.instr_wellFormed hp hi⟩
  · obtain ⟨h, rfl, hl, -, rfl⟩ := decode_reservedOpcode e
    obtain ⟨hle, hrest⟩ := bytes_append_extent hl rest
    exact ⟨hle, hrest, rfl⟩

/-! ## Formats and opcodes -/

/-- Two headers with one opcode that agree on the slots its format reads, and on the payload where it reads that, name the same
command (R71, R73). -/
theorem Header.instr_congr {h k : Header} (hop : h.op = k.op)
    (h0 : h.op ∈ [0x10, 0x12, 0x20, 0x21, 0x22, 0x23, 0x24, 0x30, 0x31, 0x32, 0x33, 0x40, 0x50, 0x51, 0x52, 0x57, 0x58] → h.a0 = k.a0)
    (h1 : h.op ∈ [0x10, 0x12, 0x20, 0x21, 0x22, 0x23, 0x24, 0x30, 0x31, 0x32, 0x33, 0x40, 0x50] → h.a1 = k.a1)
    (h2 : h.op ∈ [0x10, 0x12, 0x20, 0x30, 0x31, 0x32, 0x33, 0x40] → h.a2 = k.a2)
    (h3 : h.op ∈ [0x31, 0x33, 0x40] → h.a3 = k.a3) (h4 : h.op ∈ [0x31, 0x33] → h.a4 = k.a4)
    (hp : h.op ∈ [0x51, 0x52, 0x59] → h.payload = k.payload) : h.instr = k.instr := by
  obtain ⟨op, plen, a0, a1, a2, a3, a4, payload⟩ := h
  obtain rfl : op = k.op := hop
  simp only at h0 h1 h2 h3 h4 hp
  simp only [Header.instr]
  split
  all_goals simp_all

/-- An opcode outside the table names no operation (R81). -/
theorem Header.instr_of_reserved {h : Header} (hop : h.op ∉ [0x10, 0x11, 0x12, 0x20, 0x21, 0x22, 0x23, 0x24, 0x30, 0x31, 0x32, 0x33,
    0x34, 0x40, 0x50, 0x51, 0x52, 0x53, 0x54, 0x55, 0x56, 0x57, 0x58, 0x59]) : h.instr = none := by
  unfold Header.instr
  split
  case h_25 => rfl
  all_goals exact absurd (by simp [*]) hop

/-- Settles O3: the command is the header's, and the second header names the same one. -/
theorem ignoredFieldsHaveNoEffect : Obligations.IgnoredFieldsHaveNoEffect := by
  unfold Obligations.IgnoredFieldsHaveNoEffect
  intro h k rest i hl kl hop h0 h1 h2 h3 h4 hp e
  have hk : k.instr = h.instr := (Header.instr_congr hop h0 h1 h2 h3 h4 hp).symm
  cases hi : h.instr with
  | none => simp [decode_bytes_of_none hl hi] at e
  | some j =>
    rw [decode_bytes_of_some hl hi] at e
    rw [decode_bytes_of_some kl (hk.trans hi), e]

/-- Settles O5: every word is closed, and the decoder computes. -/
theorem writtenWordsDecode : Obligations.WrittenWordsDecode := by
  unfold Obligations.WrittenWordsDecode
  and_intros <;> rfl

end Sys2Proof

namespace Sys2Proof.Machine

/-! ## The step, by what stands at the port -/

theorem step_of_command {s : State} {i : Instr} {rest : List Byte} (h : decode s.port = .command i rest) :
    step s = exec i { s with port := rest } := by
  simp only [step, takeCommand, h, State.withPort]

theorem step_of_reservedOpcode {s : State} {op : Byte} {rest : List Byte} (h : decode s.port = .reservedOpcode op rest) :
    step s = .next { s with port := rest } := by
  simp only [step, takeCommand, h, State.withPort]

theorem step_of_incomplete {s : State} (h : decode s.port = .incomplete) : step s = .next s := by
  simp only [step, takeCommand, h]

/-- Settles O4: a header with a reserved opcode decodes to that opcode, and the step then only consumes the word. -/
theorem reservedOpcodeIsSilent : Obligations.ReservedOpcodeIsSilent := by
  unfold Obligations.ReservedOpcodeIsSilent
  intro h rest s hl hop hport
  exact step_of_reservedOpcode (hport ▸ decode_bytes_of_none hl (Header.instr_of_reserved hop) rest)

/-- Settles O6: the step takes what the decoder reads, and an encoded command is read back. -/
theorem stepRunsDecodedCommand : Obligations.StepRunsDecodedCommand := by
  unfold Obligations.StepRunsDecodedCommand
  exact ⟨fun _ _ _ h => step_of_command h, fun _ _ rest hw hport => step_of_command (hport ▸ decode_encode hw rest)⟩

/-- Settles O7: a port too short for a whole word decodes to no command. -/
theorem stepWaitsForWholeCommand : Obligations.StepWaitsForWholeCommand := by
  unfold Obligations.StepWaitsForWholeCommand
  exact fun _ h => step_of_incomplete (decode_eq_incomplete.2 h)

end Sys2Proof.Machine
end

section
/-!
PROOF. The invariant (spec/10_state.md section 7, spec/20_memory.md): reset has it and every step keeps it. Each shape a command can have
is taken once; of the invariant's fields a shape states those it writes, and the others are the ones that held before.
-/

namespace Sys2Proof.Machine

/-! ## Reset -/

/-- Settles O47: reset is a literal, and its tables list nothing. -/
theorem resetValues : Obligations.ResetValues := by
  unfold Obligations.ResetValues
  exact ⟨rfl, rfl, rfl, fun _ => ⟨rfl, rfl⟩, rfl, rfl, rfl, rfl⟩

theorem reset_inv : State.reset.Inv where
  params := Config.params_valid
  levels := by decide
  period := by decide
  created h := nomatch h
  uncreated _ := ⟨rfl, rfl, rfl, rfl⟩
  pixPin := Config.params_valid.1
  bufRange _ h := nomatch h
  bufWf := Memory.wf_nil
  histPins _ h := nomatch h
  histWf := ⟨.nil, fun _ h => nomatch h⟩
  fbPins _ h := nomatch h
  fbWf := ⟨.nil, fun _ h => nomatch h⟩
  noHistory _ := rfl
  phase := rfl
  mp3Pins := ⟨Config.params_valid.1, Config.params_valid.1⟩
  mp3Uninit _ := ⟨rfl, rfl⟩

/-- Settles O48: the tables and the trace of reset are empty, and its parameters meet R7's constraints. -/
theorem resetMeetsInvariant : Obligations.ResetMeetsInvariant := by
  unfold Obligations.ResetMeetsInvariant
  exact ⟨reset_inv, fun _ h => nomatch h⟩

/-! ## What a command writes -/

/-- A write to a mapped pin keeps a per-pin table on mapped pins. -/
theorem tableSet_keys_lt {α : Type} [DecidableEq α] {d : α} {t : List (Nat × α)} {n k : Nat} (h : ∀ c ∈ t, c.1 < n) (hk : k < n) (v : α) :
    ∀ c ∈ tableSet d t k v, c.1 < n := by
  intro c hc
  obtain ⟨rfl, -⟩ | hc := mem_tableSet hc
  · exact hk
  · exact h c hc

/-- The invariant says nothing of the port. -/
theorem State.Inv.setPort {s : State} (h : s.Inv) (bs : List Byte) : State.Inv { s with port := bs } := { h with }

theorem PwmFootprint.inv {s t : State} (hf : PwmFootprint s t) (h : s.Inv) : t.Inv := by
  obtain ⟨init, env, events, rfl, -⟩ := hf
  exact { h with }

theorem SendFootprint.inv {s t : State} (hf : SendFootprint s t) (h : s.Inv) : t.Inv := by
  obtain rfl | ⟨-, c, p, -, rfl⟩ := hf
  · exact h
  · exact { h with }

/-- A store lies inside the buffer, so a matrix that has no buffer yet keeps an empty one. -/
theorem BufFootprint.inv {s t : State} (hf : BufFootprint s t) (h : s.Inv) : t.Inv := by
  obtain ⟨e, hkeepsWf, -, hkeepsRange⟩ := hf
  have hwf := hkeepsWf h.bufWf
  have hrange := hkeepsRange h.bufRange
  clear hkeepsWf hkeepsRange
  generalize t.pix.buf = buf at e hwf hrange
  subst e
  refine { h with uncreated := fun hi => ?_, bufRange := hrange, bufWf := hwf }
  obtain ⟨hrows, hcols, hpin, -⟩ := h.uncreated hi
  refine ⟨hrows, hcols, hpin, List.eq_nil_iff_forall_not_mem.2 fun c hc => ?_⟩
  have hlt : c.1 < s.pix.rows * s.pix.cols * 3 := hrange c hc
  simp [hrows] at hlt

/-- A measurement writes the two tables at its pin; it stores a last reading other than 0, or none and no history. -/
theorem measurePin_inv {s : State} (h : s.Inv) {p : Nat} (hp : p < s.params.nPins) (m : PullMode) (mul dv : Int) :
    (measurePin p m mul dv s).Inv := by
  obtain ⟨hist, fb, last, env, events, he, hcase, -⟩ := measurePin_eq p m mul dv s
  rw [he]
  obtain ⟨rfl, rfl, rfl⟩ | ⟨hw, rfl, rfl, rfl⟩ := hcase
  · exact { h with fbPins := tableSet_keys_lt h.fbPins hp _, fbWf := tableSet_wf h.fbWf .., phase := rfl }
  · exact { h with
      histPins := tableSet_keys_lt h.histPins hp _
      histWf := tableSet_wf h.histWf ..
      fbPins := tableSet_keys_lt h.fbPins hp _
      fbWf := tableSet_wf h.fbWf ..
      noHistory := fun h0 => absurd h0 hw
      phase := rfl }

/-! ## Every step -/

theorem ExecShape.inv {s t : State} (hs : ExecShape s t) (h : s.Inv) : t.Inv := by
  cases hs with
  | cfg _ _ e hi hl hp =>
    generalize t.pwm = pwm at e hl hp
    subst e
    exact { h with levels := hl, period := hp }
  | pwm _ hf => exact hf.inv h
  | pixInit _ _ hi hr hc hp hb e =>
    generalize fbBytes t = bytes at e
    generalize t.pix = pix at e hi hr hc hp hb
    subst e
    exact { h with
      created := fun _ => ⟨hr, hc⟩
      uncreated := fun h0 => nomatch hi.symm.trans h0
      pixPin := hp
      bufRange := fun c hc => by simp [hb] at hc
      bufWf := by simp only [hb]; exact Memory.wf_nil }
  | buf _ hf => exact hf.inv h
  | refresh | badMeasure => exact { h with }
  | measure p m mul dv hp => exact measurePin_inv h hp m mul dv
  | mp3Init _ a b ha hb => exact { h with mp3Pins := ⟨ha, hb⟩, mp3Uninit := fun h0 => nomatch h0 }
  | send _ hf => exact hf.inv h

theorem step_inv {s t : State} (h : s.Inv) (hstep : step s = .next t) : t.Inv := by
  obtain rfl | ⟨-, -, e⟩ | ⟨i, -, rest, -, -, -, hexec⟩ := step_cases hstep
  · exact h
  · rw [e]
    exact h.setPort _
  · exact (exec_shape hexec).inv (h.setPort rest)

/-- Settles O49: by the shapes a command can have, each keeping the invariant. -/
theorem stepKeepsInvariant : Obligations.StepKeepsInvariant := by
  unfold Obligations.StepKeepsInvariant
  exact fun _ _ => step_inv

end Sys2Proof.Machine
end

section
/-!
PROOF. What every step keeps (spec/10_state.md sections 2 to 5, spec/20_memory.md section 4, spec/00_scope.md section 4): the flags and what
they guard, the parameters, the order of trace and port, and the discipline of the wires.
-/

namespace Sys2Proof.Machine

/-! ## Flags, and what they guard -/

/-- What no command changes: a unit's configuration once its flag is set, the flags that are set, the parameters, the port. -/
structure KeepsGuarded (s t : State) : Prop where
  pwm : s.pwm.init = true → t.pwm = s.pwm
  pix : s.pix.init = true → t.pix = { s.pix with buf := t.pix.buf }
  mp3 : s.mp3.init = true → t.mp3 = s.mp3
  params : t.params = s.params
  port : t.port = s.port

theorem PwmFootprint.keepsGuarded {s t : State} (h : PwmFootprint s t) : KeepsGuarded s t := by
  have hpwm := h.pwm_of_init
  obtain ⟨init, env, events, rfl, -⟩ := h
  exact ⟨hpwm, fun _ => rfl, fun _ => rfl, rfl, rfl⟩

theorem SendFootprint.keepsGuarded {s t : State} (h : SendFootprint s t) : KeepsGuarded s t := by
  obtain rfl | ⟨-, c, p, -, rfl⟩ := h
  all_goals exact ⟨fun _ => rfl, fun _ => rfl, fun _ => rfl, rfl, rfl⟩

theorem measurePin_keepsGuarded (p : Nat) (m : PullMode) (mul dv : Int) (s : State) : KeepsGuarded s (measurePin p m mul dv s) := by
  obtain ⟨hist, fb, last, env, events, he, -⟩ := measurePin_eq p m mul dv s
  rw [he]
  exact ⟨fun _ => rfl, fun _ => rfl, fun _ => rfl, rfl, rfl⟩

/-- The three shapes that write a guarded field are those of a unit whose flag is clear. -/
theorem ExecShape.keepsGuarded {s t : State} (hs : ExecShape s t) : KeepsGuarded s t := by
  cases hs with
  | cfg _ h e =>
    rw [e]
    exact ⟨fun hi => (nomatch hi.symm.trans h), fun _ => rfl, fun _ => rfl, rfl, rfl⟩
  | pwm _ h => exact h.keepsGuarded
  | pixInit _ h _ _ _ _ _ e =>
    rw [e]
    exact ⟨fun _ => rfl, fun hi => (nomatch hi.symm.trans h), fun _ => rfl, rfl, rfl⟩
  | buf _ h =>
    obtain ⟨e, -⟩ := h
    rw [e]
    exact ⟨fun _ => rfl, fun _ => rfl, fun _ => rfl, rfl, rfl⟩
  | refresh | badMeasure => exact ⟨fun _ => rfl, fun _ => rfl, fun _ => rfl, rfl, rfl⟩
  | measure p m mul dv => exact measurePin_keepsGuarded p m mul dv s
  | mp3Init h => exact ⟨fun _ => rfl, fun _ => rfl, fun hi => (nomatch hi.symm.trans h), rfl, rfl⟩
  | send _ h => exact h.keepsGuarded

/-- Settles O52: a step that runs no command changes the port at most, and a command keeps what is guarded. -/
theorem flagsAreWriteOnce : Obligations.FlagsAreWriteOnce := by
  unfold Obligations.FlagsAreWriteOnce
  intro s t h
  obtain rfl | ⟨-, -, e⟩ | ⟨i, -, rest, -, -, -, hexec⟩ := step_cases h
  · exact ⟨fun _ => rfl, fun _ => rfl, fun _ => rfl, rfl⟩
  · rw [e]
    exact ⟨fun _ => rfl, fun _ => rfl, fun _ => rfl, rfl⟩
  · obtain ⟨hpwm, hpix, hmp3, hparams, -⟩ := (exec_shape hexec).keepsGuarded
    exact ⟨hpwm, hpix, hmp3, hparams⟩

/-! ## Trace and port -/

/-- A step takes nothing from the port, or one word's bytes from its front (R70). -/
theorem step_port {s t : State} (h : step s = .next t) : ∃ taken, s.port = taken ++ t.port := by
  obtain rfl | ⟨hd, hport, -⟩ | ⟨i, hd, rest, hport, -, -, hexec⟩ := step_cases h
  · exact ⟨[], rfl⟩
  · exact ⟨hd.bytes, hport⟩
  · exact ⟨hd.bytes, hport.trans (by rw [(exec_shape hexec).keepsGuarded.port])⟩

/-- Settles O53: the trace grows at its end, the port shrinks at its front. -/
theorem traceOnlyGrows : Obligations.TraceOnlyGrows := by
  unfold Obligations.TraceOnlyGrows
  exact fun _ _ h => ⟨step_trace h, step_port h⟩

/-! ## The wires -/

/-- A lawful event stays lawful: what an event's law says of a unit is guarded by that unit's flag, or is a parameter. -/
theorem Event.Lawful.of_keepsGuarded {s t : State} (h : KeepsGuarded s t) {e : Event} (he : e.Lawful s) : e.Lawful t := by
  obtain ⟨hpwm, hpix, hmp3, hparams, -⟩ := h
  cases e with
  | i2cWrite | i2cReadReg => simpa only [Event.Lawful, hpwm he.1, hparams] using he
  | delayUs => exact he
  | gpioPull | gpioWrite | pulseIn => simpa only [Event.Lawful, hparams] using he
  | ledSend =>
    rw [Event.Lawful, fbSize, hpix he.1]
    exact he
  | uartCfg | uartTx => simpa only [Event.Lawful, hmp3 he.1] using he

theorem PwmEvent.lawful {s : State} {e : Event} (h : PwmEvent s.params s.pwm e) (hi : s.pwm.init = true) : e.Lawful s := by
  obtain ⟨bytes, rfl, hlen⟩ | ⟨m, rfl⟩ | rfl := h
  · exact ⟨hi, rfl, hlen⟩
  · exact ⟨hi, rfl, rfl⟩
  · exact .inl rfl

theorem RangeEvent.lawful {s : State} {p : Nat} {e : Event} (h : RangeEvent p e) (hp : p < s.params.nPins) : e.Lawful s := by
  obtain ⟨m, rfl⟩ | ⟨l, rfl⟩ | rfl | rfl | rfl | ⟨w, rfl⟩ := h
  · exact hp
  · exact hp
  · exact .inr (.inl rfl)
  · exact .inr (.inr (.inl rfl))
  · exact .inr (.inr (.inr rfl))
  · exact ⟨hp, rfl⟩

/-- A refresh of a created matrix carries the whole buffer (R160). -/
theorem ledSend_lawful {s : State} (h : s.pix.init = true) : (Event.ledSend s.pix.pin (fbBytes s)).Lawful s :=
  ⟨h, rfl, Memory.readBytes_length ..⟩

/-- The events a command adds are lawful in the state it leaves. -/
def EmitsLawful (s t : State) : Prop := ∃ events, t.trace = s.trace ++ events ∧ ∀ e ∈ events, e.Lawful t

theorem EmitsLawful.of_trace_eq {s t : State} (h : t.trace = s.trace) : EmitsLawful s t :=
  ⟨[], by rw [h, List.append_nil], fun _ he => nomatch he⟩

theorem EmitsLawful.of_single {s t : State} {e : Event} (h : t.trace = s.trace ++ [e]) (he : e.Lawful t) : EmitsLawful s t :=
  ⟨[e], h, fun _ hm => List.mem_singleton.1 hm ▸ he⟩

/-- Where a command emits anything the driver is initialised by then (R24, C16). -/
theorem PwmFootprint.emitsLawful {s t : State} (h : PwmFootprint s t) : EmitsLawful s t := by
  obtain ⟨init, env, events, rfl, -, hinit, -, hevents⟩ := h
  exact ⟨events, rfl, fun e he => PwmEvent.lawful (hevents e he) (hinit (List.ne_nil_of_mem he))⟩

theorem SendFootprint.emitsLawful {s t : State} (h : SendFootprint s t) : EmitsLawful s t := by
  obtain rfl | ⟨hi, c, p, hp, rfl⟩ := h
  · exact .of_trace_eq rfl
  · exact .of_single rfl ⟨hi, c, p, hp, rfl⟩

theorem measurePin_emitsLawful {s : State} {p : Nat} (hp : p < s.params.nPins) (m : PullMode) (mul dv : Int) :
    EmitsLawful s (measurePin p m mul dv s) := by
  obtain ⟨hist, fb, last, env, events, he, -, -, hevents⟩ := measurePin_eq p m mul dv s
  rw [he]
  exact ⟨events, rfl, fun e hm => (hevents e hm).lawful hp⟩

theorem ExecShape.emitsLawful {s t : State} (hs : ExecShape s t) : EmitsLawful s t := by
  cases hs with
  | cfg _ _ e => exact .of_trace_eq (by rw [e])
  | pwm _ h => exact h.emitsLawful
  | pixInit _ _ hi _ _ _ _ e =>
    refine ⟨_, congrArg State.trace e, fun _ he => ?_⟩
    have := ledSend_lawful hi
    simp only [List.mem_cons, List.not_mem_nil, or_false, or_self] at he
    rwa [he]
  | buf _ h =>
    obtain ⟨e, -⟩ := h
    exact .of_trace_eq (by rw [e])
  | refresh h => exact .of_single rfl (ledSend_lawful h)
  | badMeasure => exact .of_trace_eq rfl
  | measure p m mul dv hp => exact measurePin_emitsLawful hp m mul dv
  | mp3Init => exact .of_single rfl ⟨rfl, rfl, rfl, rfl⟩
  | send _ h => exact h.emitsLawful

theorem ExecShape.wiresLawful {s t : State} (hs : ExecShape s t) (h : s.WiresLawful) : t.WiresLawful := by
  obtain ⟨events, he, hlawful⟩ := hs.emitsLawful
  intro e hm
  rw [he] at hm
  obtain hm | hm := List.mem_append.1 hm
  · exact (h e hm).of_keepsGuarded hs.keepsGuarded
  · exact hlawful e hm

/-- Settles O51: the events before the step stay lawful since the flags guard what their laws name, and a command's own are lawful. -/
theorem stepKeepsWiresLawful : Obligations.StepKeepsWiresLawful := by
  unfold Obligations.StepKeepsWiresLawful
  intro s t h hstep
  obtain rfl | ⟨-, -, e⟩ | ⟨i, -, rest, -, -, -, hexec⟩ := step_cases hstep
  · exact h
  · rw [e]
    exact h
  · exact (exec_shape hexec).wiresLawful h

end Sys2Proof.Machine
end

section
/-!
PROOF. The PWM driver and the motor command (spec/40_pwm.md, spec/41_motor_servo.md, section MOTOR): the configuration, the initialisation
sequence, channel records, and the last-written ticks of a motor's two channels.
-/

namespace Sys2Proof.Machine

/-! ## Configuration and initialisation -/

/-- `PWM_CFG` before initialisation writes the three clamped operands (R100). -/
theorem exec_pwmCfg_of_uninit {s : State} (hi : s.pwm.init = false) (addr levels period : Word) :
    exec (.pwmCfg addr levels period) s = .next { s with
      pwm := { s.pwm with
        addr := BitVec.ofInt 7 (clamp addr.toInt 0 127)
        levels := (clamp levels.toInt 2 65536).toNat
        period := (clamp period.toInt 1 2147483647).toNat } } := by
  change execPwmCfg addr levels period s = _
  rw [execPwmCfg, if_neg (by simp [hi])]

/-- Settles O8: each field holds its clamped operand, which fits it. -/
theorem pwmCfgSetsConfiguration : Obligations.PwmCfgSetsConfiguration := by
  unfold Obligations.PwmCfgSetsConfiguration
  intro s addr levels period hi
  refine ⟨_, exec_pwmCfg_of_uninit hi .., rfl, hi, ?_, ?_, ?_⟩
  · simp only [BitVec.toNat_ofInt, clamp_eq (show (0 : Int) ≤ 127 by decide)]
    omega
  · simp only [clamp_eq (show (2 : Int) ≤ 65536 by decide)]
    omega
  · simp only [clamp_eq (show (1 : Int) ≤ 2147483647 by decide)]
    omega

theorem exec_pwmInit_of_init {s : State} (hi : s.pwm.init = true) : exec .pwmInit s = .next s := if_pos hi

theorem exec_pwmInit_of_uninit {s : State} (hi : s.pwm.init = false) : exec .pwmInit s = .next (initSeq s) := if_neg (by simp [hi])

/-- Settles O10: the seven events of the sequence, with the clamp of the prescale byte as a maximum and a minimum. -/
theorem pwmInitRunsSequence : Obligations.PwmInitRunsSequence := by
  unfold Obligations.PwmInitRunsSequence
  refine fun s m => ⟨fun hi hm => ?_, exec_pwmInit_of_init⟩
  have hprescale : prescale s.pwm.period s.pwm.levels =
      BitVec.ofInt 8 (max 0 (min (25 * (s.pwm.period : Int) / (s.pwm.levels : Int) - 1) 255)) := by
    rw [prescale, lo8, clamp_eq (by decide), prescaleFactor]
  rw [exec_pwmInit_of_uninit hi, initSeq_eq, initEvents, hprescale, hm]

/-! ## Channel writes -/

/-- Settles O11: the one channel write of an initialised driver. -/
theorem pwmSetchWritesRecord : Obligations.PwmSetchWritesRecord := by
  unfold Obligations.PwmSetchWritesRecord
  exact fun _ _ _ _ hi h0 h15 => congrArg Host.Outcome.next (setChannel_ready hi h0 h15 ..)

/-- Settles O12: each of the five commands is one channel write, which a bad channel drops before the lazy initialisation. -/
theorem badChannelIsSilent : Obligations.BadChannelIsSilent := by
  unfold Obligations.BadChannelIsSilent
  intro s channel a b hbad
  have hdrop (on off : Int) : Host.Outcome.next (setChannel channel.toInt on off s) = (.next s : Result) :=
    congrArg Host.Outcome.next (setChannel_of_bad hbad on off s)
  exact ⟨hdrop .., hdrop .., hdrop .., hdrop .., hdrop ..⟩

/-- Of two channel writes on a driver not initialised the first effective one initialises it. -/
theorem setChannel_pair_lazy {s : State} (hi : s.pwm.init = false) {c d : Int} (h : (0 ≤ c ∧ c ≤ 15) ∨ (0 ≤ d ∧ d ≤ 15))
    (on off on' off' : Int) :
    setChannel c on off (setChannel d on' off' s) = setChannel c on off (setChannel d on' off' (initSeq s)) := by
  by_cases hd : 0 ≤ d ∧ d ≤ 15
  · rw [setChannel_lazy hi hd.1 hd.2]
  · obtain ⟨hc0, hc15⟩ := h.resolve_right hd
    have hbad : d < 0 ∨ 15 < d := by omega
    rw [setChannel_of_bad hbad, setChannel_of_bad hbad, setChannel_lazy hi hc0 hc15]

/-! ## MOTOR -/

/-- Forward, the reverse channel is zeroed first (R120). -/
theorem exec_motor_of_nonneg {s : State} {speed : Word} {v : Int} (hv : motorSpeed speed.toInt s.pwm.levels = v) (h : 0 ≤ v) (f r : Word) :
    exec (.motor f r speed) s = .next (setChannel f.toInt 0 v (setChannel r.toInt 0 0 s)) := by
  subst hv
  exact congrArg Host.Outcome.next (if_pos h)

/-- Backward, the forward channel is. -/
theorem exec_motor_of_neg {s : State} {speed : Word} {v : Int} (hv : motorSpeed speed.toInt s.pwm.levels = v) (h : v < 0) (f r : Word) :
    exec (.motor f r speed) s = .next (setChannel r.toInt 0 (-v) (setChannel f.toInt 0 0 s)) := by
  subst hv
  exact congrArg Host.Outcome.next (if_neg (Int.not_le.2 h))

theorem motorSpeed_eq (speed : Int) {levels : Nat} (h : 1 ≤ levels) :
    motorSpeed speed levels = max (-((levels : Int) - 1)) (min speed ((levels : Int) - 1)) :=
  clamp_eq (by omega) speed

theorem exec_motor_lazy {s : State} (hi : s.pwm.init = false) {f r : Word}
    (h : (0 ≤ f.toInt ∧ f.toInt ≤ 15) ∨ (0 ≤ r.toInt ∧ r.toInt ≤ 15)) (speed : Word) :
    exec (.motor f r speed) s = exec (.motor f r speed) (initSeq s) := by
  have hlevels : motorSpeed speed.toInt (initSeq s).pwm.levels = motorSpeed speed.toInt s.pwm.levels := by rw [initSeq_pwm_levels]
  by_cases hv : 0 ≤ motorSpeed speed.toInt s.pwm.levels
  · rw [exec_motor_of_nonneg rfl hv, exec_motor_of_nonneg hlevels hv, setChannel_pair_lazy hi h]
  · rw [exec_motor_of_neg rfl (by omega), exec_motor_of_neg hlevels (by omega), setChannel_pair_lazy hi h.symm]

/-- A servo command on a driver not initialised converts with the configuration that the initialisation keeps. -/
theorem servoPulse_lazy {s : State} (hi : s.pwm.init = false) {c : Int} (h0 : 0 ≤ c) (h15 : c ≤ 15) (q : Rat) :
    servoPulse c q s = servoPulse c q (initSeq s) := by
  rw [servoPulse, servoPulse, initSeq_pwm_levels, initSeq_pwm_period, setChannel_lazy hi h0 h15]

/-- Settles O13: each of the commands comes down to channel writes, the first effective of which runs the initialisation. -/
theorem lazyInitialisation : Obligations.LazyInitialisation := by
  unfold Obligations.LazyInitialisation
  intro s channel a b hi h0 h15
  have hservo (q : State → Rat) (hq : q (initSeq s) = q s) :
      Host.Outcome.next (servoPulse channel.toInt (q s) s) = (.next (servoPulse channel.toInt (q (initSeq s)) (initSeq s)) : Result) := by
    rw [servoPulse_lazy hi h0 h15, hq]
  exact ⟨initSeq s, exec_pwmInit_of_uninit hi, initSeq_pwm_init s, congrArg Host.Outcome.next (setChannel_lazy hi h0 h15 ..),
    hservo (fun _ => a.toInt) rfl, hservo (fun u => continuousPulse u.params a.toInt) (by rw [initSeq_params]),
    hservo (fun u => anglePulse u.params a.toInt) (by rw [initSeq_params]),
    hservo (fun u => widePulse u.params a.toInt) (by rw [initSeq_params]), exec_motor_lazy hi (.inl ⟨h0, h15⟩) b,
    exec_motor_lazy hi (.inr ⟨h0, h15⟩) b⟩

/-- Two channel writes on an initialised driver emit their two records in order. -/
theorem setChannel_pair_ready {s : State} (hi : s.pwm.init = true) {c d : Int} (hc0 : 0 ≤ c) (hc15 : c ≤ 15) (hd0 : 0 ≤ d) (hd15 : d ≤ 15)
    (off off' : Int) : setChannel c 0 off (setChannel d 0 off' s) = { s with trace := s.trace ++
      [.i2cWrite s.pwm.addr (spelledRecord s.params d 0 off'), .i2cWrite s.pwm.addr (spelledRecord s.params c 0 off)] } := by
  have hfirst := setChannel_ready hi hd0 hd15 0 off'
  have hinit : (setChannel d 0 off' s).pwm.init = true := by rw [hfirst, hi]
  rw [setChannel_ready hinit hc0 hc15, hfirst]
  simp only [List.append_assoc, List.cons_append, List.nil_append]

/-- Settles O14: by the sign of the clamped speed. -/
theorem motorWritesTwoRecords : Obligations.MotorWritesTwoRecords := by
  unfold Obligations.MotorWritesTwoRecords
  intro s f r speed v hi hl hf0 hf15 hr0 hr15 hv
  rw [← motorSpeed_eq speed.toInt hl] at hv
  by_cases h : 0 ≤ v
  · rw [if_pos h, exec_motor_of_nonneg hv.symm h, setChannel_pair_ready hi hf0 hf15 hr0 hr15]
  · rw [if_neg h, exec_motor_of_neg hv.symm (by omega), setChannel_pair_ready hi hr0 hr15 hf0 hf15]

/-- `PWM_SETCH` with on-tick 0 and an off-tick that is a clamped speed, or 0 (R104). -/
theorem exec_pwmSetch_ofInt {v : Int} (h0 : 0 ≤ v) (h1 : v ≤ 65535) (channel : Word) (s : State) :
    exec (.pwmSetch channel 0 (BitVec.ofInt 32 v)) s = .next (setChannel channel.toInt 0 v s) := by
  have htick : (BitVec.ofInt 32 v).toInt = v := BitVec.toInt_ofInt_eq_self (by decide) (by omega) (by omega)
  change Host.Outcome.next (setChannel channel.toInt 0 (BitVec.ofInt 32 v).toInt s) = _
  rw [htick]

/-- Settles O15: a write to a bad channel is nothing, which leaves the other channel's; with both bad it leaves none. -/
theorem motorDropsBadChannelAlone : Obligations.MotorDropsBadChannelAlone := by
  unfold Obligations.MotorDropsBadChannelAlone
  intro s f r speed v hl2 hl hv
  rw [← motorSpeed_eq speed.toInt (by omega)] at hv
  have hrange := motorSpeed_range speed.toInt (levels := s.pwm.levels) (by omega)
  rw [← hv] at hrange
  refine ⟨fun hr => ?_, fun hf => ?_, fun hf hr => ?_⟩
  all_goals by_cases h : 0 ≤ v
  · rw [max_eq_left h, exec_pwmSetch_ofInt h (by omega), exec_motor_of_nonneg hv.symm h, setChannel_of_bad hr]
  · rw [max_eq_right (by omega), exec_pwmSetch_ofInt le_rfl (by decide), exec_motor_of_neg hv.symm (by omega), setChannel_of_bad hr]
  · rw [max_eq_right (by omega), exec_pwmSetch_ofInt le_rfl (by decide), exec_motor_of_nonneg hv.symm h, setChannel_of_bad hf]
  · rw [max_eq_left (by omega), exec_pwmSetch_ofInt (by omega) (by omega), exec_motor_of_neg hv.symm (by omega), setChannel_of_bad hf]
  · rw [exec_motor_of_nonneg hv.symm h, setChannel_of_bad hr, setChannel_of_bad hf]
  · rw [exec_motor_of_neg hv.symm (by omega), setChannel_of_bad hf, setChannel_of_bad hr]

/-! ## The last-written ticks of a pair -/

/-- The state in which one channel has been zeroed and then another driven: what `MOTOR` ends in (R120). -/
def drivePair (driven undriven : Fin nChannels) (v : Int) (s : State) : State :=
  setChannel driven.val 0 v (setChannel undriven.val 0 0 s)

theorem drivePair_addr (c d : Fin nChannels) (v : Int) (s : State) : (drivePair c d v s).pwm.addr = s.pwm.addr := by
  rw [drivePair, setChannel_addr, setChannel_addr]

theorem drivePair_params (c d : Fin nChannels) (v : Int) (s : State) : (drivePair c d v s).params = s.params := by
  rw [drivePair, setChannel_params, setChannel_params]

theorem exec_motor_pair {fw rw : Word} {f r : Fin nChannels} (hf : fw.toInt = f.val) (hr : rw.toInt = r.val) (speed : Word) (s : State) :
    (0 ≤ motorSpeed speed.toInt s.pwm.levels ∧
      exec (.motor fw rw speed) s = .next (drivePair f r (motorSpeed speed.toInt s.pwm.levels) s)) ∨
    (motorSpeed speed.toInt s.pwm.levels < 0 ∧
      exec (.motor fw rw speed) s = .next (drivePair r f (-motorSpeed speed.toInt s.pwm.levels) s)) := by
  obtain h | h := lt_or_ge (motorSpeed speed.toInt s.pwm.levels) 0
  · exact .inr ⟨h, by rw [exec_motor_of_neg rfl h, hf, hr, drivePair]⟩
  · exact .inl ⟨h, by rw [exec_motor_of_nonneg rfl h, hf, hr, drivePair]⟩

/-- The driven channel was last written its tick. -/
theorem lastWritten_driven (c d : Fin nChannels) (v : Int) (s : State) :
    lastWrittenTick s.params s.pwm.addr c (drivePair c d v s).trace = some (lo16 v) := by
  rw [drivePair, lastWritten_setChannel (setChannel_addr ..) (setChannel_params ..), if_pos rfl]

/-- A tick in range is written whole. -/
theorem lastWritten_driven_toNat {v : Int} (h0 : 0 ≤ v) (h1 : v ≤ 65535) (c d : Fin nChannels) (s : State) :
    (lastWrittenTick s.params s.pwm.addr c (drivePair c d v s).trace).map BitVec.toNat = some v.toNat := by
  rw [lastWritten_driven, Option.map_some, lo16_toNat ⟨h0, h1⟩]

/-- The undriven channel was last written 0, where the two registers differ. -/
theorem lastWritten_undriven {c d : Fin nChannels} {s : State} (hne : channelReg s.params c ≠ channelReg s.params d) (v : Int) :
    lastWrittenTick s.params s.pwm.addr d (drivePair c d v s).trace = some 0 := by
  rw [drivePair, lastWritten_setChannel (setChannel_addr ..) (setChannel_params ..), if_neg hne, lastWritten_setChannel rfl rfl,
    if_pos rfl]
  rfl

/-- Settles O16: the tick written is the speed's absolute value, clamped with it, and fits 16 bits. -/
theorem motorLastWrittenTicks : Obligations.MotorLastWrittenTicks := by
  unfold Obligations.MotorLastWrittenTicks
  intro s f r fw rw speed hf hr hne hl2 hl
  have hv := motorSpeed_eq speed.toInt (levels := s.pwm.levels) (by omega)
  obtain ⟨h, hexec⟩ | ⟨h, hexec⟩ := exec_motor_pair hf hr speed s
  · have hspeed : 0 ≤ speed.toInt := by omega
    have htick : (motorSpeed speed.toInt s.pwm.levels).toNat = min speed.toInt.natAbs (s.pwm.levels - 1) := by omega
    refine ⟨_, hexec, ?_, ?_⟩ <;> rw [drivePair_params, drivePair_addr, if_pos hspeed]
    · rw [lastWritten_driven_toNat h (by omega), htick]
    · exact lastWritten_undriven hne _
  · have hspeed : ¬ 0 ≤ speed.toInt := by omega
    have htick : (-motorSpeed speed.toInt s.pwm.levels).toNat = min speed.toInt.natAbs (s.pwm.levels - 1) := by omega
    refine ⟨_, hexec, ?_, ?_⟩ <;> rw [drivePair_params, drivePair_addr, if_neg hspeed]
    · rw [lastWritten_driven_toNat (by omega) (by omega), htick]
    · exact lastWritten_undriven hne.symm _

end Sys2Proof.Machine
end

section
/-!
PROOF. No shoot-through (spec/41_motor_servo.md, the no-shoot-through guarantee; spec/70_reset_and_hazards.md section 3): `MOTOR` zeroes the
undriven channel of its pair before it drives the other, and every other command writes records to its own channel operands only.
-/

namespace Sys2Proof.Machine

/-! ## MOTOR on the pair -/

/-- At any instant of `MOTOR` the pair's last-written ticks are those before it, until the undriven channel's is 0. -/
theorem drivePair_prefix {c d : Fin nChannels} {s : State} (hne : channelReg s.params c ≠ channelReg s.params d) (v : Int) {n : Nat}
    (hn : s.trace.length ≤ n) :
    (∀ ch, lastWrittenTick s.params s.pwm.addr ch ((drivePair c d v s).trace.take n) = lastWrittenTick s.params s.pwm.addr ch s.trace) ∨
    lastWrittenTick s.params s.pwm.addr d ((drivePair c d v s).trace.take n) = some 0 := by
  have hzeroed : lastWrittenTick s.params s.pwm.addr d (setChannel d.val 0 0 s).trace = some 0 := by
    rw [lastWritten_setChannel rfl rfl, if_pos rfl]
    rfl
  obtain h | h := Nat.le_total n (setChannel d.val 0 0 s).trace.length
  · obtain ⟨events, he⟩ := (ExecShape.pwm _ (setChannel_footprint c.val 0 v (setChannel d.val 0 0 s))).trace
    rw [drivePair, he, List.take_append_of_le_length h]
    obtain hbefore | hover := setChannel_prefix (s := s) rfl rfl d 0 0 hn
    · exact .inl hbefore
    · exact .inr (by rw [hover, hzeroed])
  · obtain hbefore | hover := setChannel_prefix (s := setChannel d.val 0 0 s) (setChannel_addr ..) (setChannel_params ..) c 0 v h
    · exact .inr (by rw [drivePair, hbefore, hzeroed])
    · exact .inr (by rw [drivePair, hover, ← drivePair, lastWritten_undriven hne])

theorem drivePair_atMostOneDriven {c d : Fin nChannels} {s : State} (hne : channelReg s.params c ≠ channelReg s.params d) (v : Int)
    (h : atMostOneDriven s.params s.pwm.addr c d s.trace) {n : Nat} (hn : s.trace.length ≤ n) :
    atMostOneDriven s.params s.pwm.addr c d ((drivePair c d v s).trace.take n) := by
  obtain hbefore | hzero := drivePair_prefix hne v hn
  · simpa only [atMostOneDriven, hbefore] using h
  · exact .inr (by rw [hzero, Option.getD_some])

theorem exec_motor_atMostOneDriven {s t : State} {f r : Fin nChannels} {fw rw speed : Word} (hf : fw.toInt = f.val) (hr : rw.toInt = r.val)
    (hne : channelReg s.params f ≠ channelReg s.params r) (h : atMostOneDriven s.params s.pwm.addr f r s.trace)
    (hexec : exec (.motor fw rw speed) s = .next t) {n : Nat} (hn : s.trace.length ≤ n) :
    atMostOneDriven s.params s.pwm.addr f r (t.trace.take n) := by
  obtain ⟨-, hpair⟩ | ⟨-, hpair⟩ := exec_motor_pair hf hr speed s
  all_goals obtain rfl := Host.Outcome.next.inj (hexec.symm.trans hpair)
  · exact drivePair_atMostOneDriven hne _ h hn
  · exact (drivePair_atMostOneDriven hne.symm _ h.symm hn).symm

/-- Settles O17: the pair's undriven channel is last written 0 from before its other channel's record on. -/
theorem noShootThrough : Obligations.NoShootThrough := by
  unfold Obligations.NoShootThrough
  exact fun _ _ _ _ _ _ _ hf hr hne _ h hexec _ hn => exec_motor_atMostOneDriven hf hr hne h hexec hn

/-! ## The records of a command -/

/-- Every channel record that is added to the trace is for a channel named in `channels`. -/
def RecordsOf (channels : List Word) (s t : State) : Prop :=
  ∃ events, t.trace = s.trace ++ events ∧ ∀ e ∈ events, ∀ a reg, recordOff a reg e ≠ none →
    ∃ c ∈ channels, ∃ ch : Fin nChannels, c.toInt = (ch.val : Int) ∧ channelReg s.params ch = reg

theorem RecordsOf.of_no_record {channels : List Word} {s t : State} {events : List Event} (he : t.trace = s.trace ++ events)
    (h : ∀ e ∈ events, ∀ a reg, recordOff a reg e = none) : RecordsOf channels s t :=
  ⟨events, he, fun e hm a reg hne => absurd (h e hm a reg) hne⟩

theorem RecordsOf.of_trace_eq {channels : List Word} {s t : State} (h : t.trace = s.trace) : RecordsOf channels s t :=
  .of_no_record (events := []) (by rw [h, List.append_nil]) fun _ hm => nomatch hm

theorem RecordsOf.of_single {channels : List Word} {s t : State} {e : Event} (he : t.trace = s.trace ++ [e])
    (h : ∀ a reg, recordOff a reg e = none) : RecordsOf channels s t :=
  .of_no_record he fun _ hm => List.mem_singleton.1 hm ▸ h

theorem RecordsOf.trans {channels channels' all : List Word} {s t u : State} (h : RecordsOf channels s t) (h' : RecordsOf channels' t u)
    (hparams : t.params = s.params) (hsub : channels ⊆ all) (hsub' : channels' ⊆ all) : RecordsOf all s u := by
  obtain ⟨events, he, hr⟩ := h
  obtain ⟨events', he', hr'⟩ := h'
  refine ⟨events ++ events', by rw [he', he, List.append_assoc], fun e hm a reg hne => ?_⟩
  obtain hm | hm := List.mem_append.1 hm
  · obtain ⟨c, hc, hch⟩ := hr e hm a reg hne
    exact ⟨c, hsub hc, hch⟩
  · obtain ⟨c, hc, hch⟩ := hr' e hm a reg hne
    exact ⟨c, hsub' hc, hparams ▸ hch⟩

theorem initSeq_recordsOf (channels : List Word) (s : State) : RecordsOf channels s (initSeq s) :=
  .of_no_record (by rw [initSeq_eq]) fun _ hm a reg => List.filterMap_eq_nil_iff.1 (filterMap_initEvents a reg ..) _ hm

theorem ensurePwmInit_recordsOf (channels : List Word) (s : State) : RecordsOf channels s (ensurePwmInit s) := by
  unfold ensurePwmInit
  split
  · exact .of_trace_eq rfl
  · exact initSeq_recordsOf channels s

theorem recordOff_ne_none {b a : I2cAddr} {reg : Byte} {p : Params} {ch : Fin nChannels} {on off : Int}
    (h : recordOff a reg (.i2cWrite b (channelRecord p ch on off)) ≠ none) : channelReg p ch = reg := by
  simp only [recordOff, channelRecord, tickBytes, List.cons_append, List.nil_append] at h
  split at h
  · next hreg => exact hreg.2
  · exact absurd rfl h

theorem ensurePwmInit_params (s : State) : (ensurePwmInit s).params = s.params := by
  obtain ⟨env, events, he, -⟩ := ensurePwmInit_eq s
  rw [he]

/-- A channel write adds one record, for its own channel. -/
theorem setChannel_recordsOf (c : Word) (on off : Int) (s : State) : RecordsOf [c] s (setChannel c.toInt on off s) := by
  obtain ⟨-, h⟩ | ⟨ch, hch, h⟩ := setChannel_cases c.toInt on off s
  · exact .of_trace_eq (by rw [h])
  · rw [h]
    refine (ensurePwmInit_recordsOf [] s).trans (t := ensurePwmInit s) (channels' := [c]) ⟨_, rfl, fun e hm a reg hne => ?_⟩
      (ensurePwmInit_params s) (List.nil_subset _) (List.Subset.refl _)
    rw [List.mem_singleton.1 hm] at hne
    exact ⟨c, List.mem_singleton_self c, ch, hch, recordOff_ne_none hne⟩

theorem exec_motor_recordsOf {f r speed : Word} {s t : State} (h : exec (.motor f r speed) s = .next t) : RecordsOf [f, r] s t := by
  have hpair (c d : Word) (hc : c ∈ [f, r]) (hd : d ∈ [f, r]) (v : Int) :
      RecordsOf [f, r] s (setChannel c.toInt 0 v (setChannel d.toInt 0 0 s)) :=
    (setChannel_recordsOf d 0 0 s).trans (setChannel_recordsOf c 0 v _) (setChannel_params ..) (by simpa using hd) (by simpa using hc)
  obtain rfl := Host.Outcome.next.inj h
  split
  · exact hpair f r (by simp) (by simp) _
  · exact hpair r f (by simp) (by simp) _

theorem RangeEvent.no_record {p : Nat} {e : Event} (h : RangeEvent p e) (a : I2cAddr) (reg : Byte) : recordOff a reg e = none := by
  obtain ⟨m, rfl⟩ | ⟨l, rfl⟩ | rfl | rfl | rfl | ⟨w, rfl⟩ := h <;> rfl

theorem BufFootprint.recordsOf {s t : State} (h : BufFootprint s t) (channels : List Word) : RecordsOf channels s t := by
  obtain ⟨e, -⟩ := h
  exact .of_trace_eq (by rw [e])

theorem SendFootprint.recordsOf {s t : State} (h : SendFootprint s t) (channels : List Word) : RecordsOf channels s t := by
  obtain rfl | ⟨-, c, p, -, rfl⟩ := h
  · exact .of_trace_eq rfl
  · exact .of_single rfl fun _ _ => rfl

theorem measurePin_recordsOf (p : Nat) (m : PullMode) (mul dv : Int) (s : State) (channels : List Word) :
    RecordsOf channels s (measurePin p m mul dv s) := by
  obtain ⟨hist, fb, last, env, events, he, -, -, hevents⟩ := measurePin_eq p m mul dv s
  exact .of_no_record (by rw [he]) fun e hm => (hevents e hm).no_record

/-- A command writes records to its own channel operands only; the commands of the other units write none. -/
theorem exec_recordsOf {i : Instr} {s t : State} (h : exec i s = .next t) : RecordsOf (pwmChannels i) s t := by
  cases i
  case pwmCfg =>
    obtain rfl | ⟨-, e, -⟩ := execPwmCfg_cases h
    · exact .of_trace_eq rfl
    · exact .of_trace_eq (by rw [e])
  case pwmInit =>
    cases hi : s.pwm.init with
    | true =>
      obtain rfl := Host.Outcome.next.inj ((exec_pwmInit_of_init hi).symm.trans h)
      exact .of_trace_eq rfl
    | false =>
      obtain rfl := Host.Outcome.next.inj ((exec_pwmInit_of_uninit hi).symm.trans h)
      exact initSeq_recordsOf ..
  case pwmSetch | servoPw | servoCs | servoAng | servoWide =>
    obtain rfl := Host.Outcome.next.inj h
    exact setChannel_recordsOf ..
  case motor => exact exec_motor_recordsOf h
  case pixInit =>
    obtain rfl | ⟨-, -, -, -, -, -, e⟩ := execPixInit_cases h
    · exact .of_trace_eq rfl
    · refine .of_no_record (congrArg State.trace e) fun e hm a reg => ?_
      obtain rfl | hm := List.mem_cons.1 hm
      · rfl
      · rw [List.mem_singleton.1 hm]
        rfl
  case pixSet => exact (execPixSet_footprint h).recordsOf _
  case pixFill => exact (execPixFill_footprint h).recordsOf _
  case pixSets => exact (execPixSets_footprint h).recordsOf _
  case pixRefresh =>
    obtain rfl | ⟨-, rfl⟩ := execPixRefresh_cases h
    · exact .of_trace_eq rfl
    · exact .of_single rfl fun _ _ => rfl
  case usrMeasure =>
    obtain rfl | ⟨p, m, -, -, -, rfl⟩ := execUsrMeasure_cases h
    · exact .of_trace_eq rfl
    · exact measurePin_recordsOf ..
  case mp3Init =>
    obtain rfl | ⟨-, a, b, -, -, rfl⟩ := execMp3Init_cases h
    · exact .of_trace_eq rfl
    · exact .of_single rfl fun _ _ => rfl
  all_goals
    obtain rfl := Host.Outcome.next.inj h
    exact (sendFrame_footprint ..).recordsOf _

/-! ## Every step -/

/-- A command that keeps the pair's discipline keeps the pair from being driven on both sides, at every instant. -/
theorem exec_atMostOneDriven {i : Instr} {s t : State} {f r : Fin nChannels} (hne : channelReg s.params f ≠ channelReg s.params r)
    (hd : PairDiscipline s.params f r i) (h : atMostOneDriven s.params s.pwm.addr f r s.trace) (hexec : exec i s = .next t) {n : Nat}
    (hn : s.trace.length ≤ n) : atMostOneDriven s.params s.pwm.addr f r (t.trace.take n) := by
  obtain ⟨fw, rw, speed, rfl, hf, hr⟩ | hother := hd
  · exact exec_motor_atMostOneDriven hf hr hne h hexec hn
  · obtain ⟨events, he, hrecords⟩ := exec_recordsOf hexec
    rw [he]
    refine atMostOneDriven_append (fun e hm => ?_) (fun e hm => ?_) h hn
    all_goals
      by_contra hrec
      obtain ⟨c, hc, ch, hch, hreg⟩ := hrecords e hm _ _ hrec
      obtain ⟨hnf, hnr⟩ := hother c hc ch hch
    · exact hnf hreg
    · exact hnr hreg

/-- Before the driver is initialised a lawful trace holds no channel record, whatever the address. -/
theorem lastWritten_of_uninit {s : State} (h : s.WiresLawful) (hi : s.pwm.init = false) (p : Params) (a : I2cAddr) (c : Fin nChannels) :
    lastWrittenTick p a c s.trace = none := by
  have hnone : s.trace.filterMap (recordOff a (channelReg p c)) = [] := List.filterMap_eq_nil_iff.2 fun e he => by
    have hlawful := h e he
    cases e with
    | i2cWrite => exact nomatch hi.symm.trans hlawful.1
    | _ => rfl
  rw [lastWrittenTick, hnone, List.getLast?_nil]

/-- The address changes only before initialisation, by a command that emits nothing (R100). -/
theorem ExecShape.addr_cases {s t : State} (hs : ExecShape s t) :
    t.pwm.addr = s.pwm.addr ∨ (s.pwm.init = false ∧ t.trace = s.trace) := by
  cases hs with
  | cfg _ h e => exact .inr ⟨h, by rw [e]⟩
  | pwm _ h =>
    obtain ⟨init, env, events, rfl, -⟩ := h
    exact .inl rfl
  | pixInit _ _ _ _ _ _ _ e => exact .inl (by rw [e])
  | buf _ h =>
    obtain ⟨e, -⟩ := h
    exact .inl (by rw [e])
  | refresh | badMeasure | mp3Init => exact .inl rfl
  | measure => exact .inl (by rw [measurePin_pwm])
  | send _ h => exact .inl (by rw [h.pwm])

/-- Settles O60: the discipline decides between `MOTOR` on the pair and a command without a record for it; where the configuration
changes, nothing has been written yet. -/
theorem noShootThroughEveryStep : Obligations.NoShootThroughEveryStep := by
  unfold Obligations.NoShootThroughEveryStep
  intro s t f r hne hd h hstep
  have hsilent (u : State) (hu : u = { s with port := u.port }) :
      (∀ n, s.trace.length ≤ n → atMostOneDriven s.params s.pwm.addr f r (u.trace.take n)) ∧
      (s.WiresLawful → atMostOneDriven u.params u.pwm.addr f r u.trace) := by
    rw [hu]
    exact ⟨fun n hn => by rwa [List.take_of_length_le hn], fun _ => h⟩
  obtain rfl | ⟨-, -, e⟩ | ⟨i, hd', rest, hport, hl, hi, hexec⟩ := step_cases hstep
  · exact hsilent _ rfl
  · exact hsilent _ e
  · have hdisc := hd i rest (hport ▸ decode_bytes_of_some hl hi rest)
    have hpair : ∀ n, s.trace.length ≤ n → atMostOneDriven s.params s.pwm.addr f r (t.trace.take n) :=
      fun n hn => exec_atMostOneDriven (s := { s with port := rest }) hne hdisc h hexec hn
    refine ⟨hpair, fun hlawful => ?_⟩
    have hshape := exec_shape hexec
    rw [hshape.keepsGuarded.params]
    obtain haddr | ⟨huninit, htrace⟩ := hshape.addr_cases
    · obtain ⟨events, he⟩ := hshape.trace
      have hwhole := hpair t.trace.length (by rw [he]; simp)
      rwa [List.take_length, ← haddr] at hwhole
    · rw [htrace]
      exact .inl (by rw [lastWritten_of_uninit hlawful huninit, Option.getD_none])

end Sys2Proof.Machine
end

section
/-!
PROOF. The servo commands (spec/41_motor_servo.md): the tick conversion in integers, the three profiles' pulse widths, and the record each
command writes.
-/

namespace Sys2Proof.Machine

/-! ## The tick conversion -/

/-- Rounding half up a quotient of integers is one floored division (R10). -/
theorem rhu_div (a : Int) {b : Int} (hb : 0 < b) : rhu ((a : Rat) / (b : Rat)) = (2 * a + b) / (2 * b) := by
  have hbq : (b : Rat) ≠ 0 := by exact_mod_cast hb.ne'
  have hsum : (a : Rat) / b + 1 / 2 = ((2 * a + b : Int) : Rat) / ((2 * b).toNat : Nat) := by
    rw [← Int.cast_natCast, Int.toNat_of_nonneg (by omega)]
    push_cast
    field_simp
  rw [rhu, hsum]
  refine (Rat.floor_intCast_div_natCast _ _).trans ?_
  rw [Int.toNat_of_nonneg (by omega)]

theorem ticksOfPw_div (num : Int) {den : Int} {levels period : Nat} (hd : 0 < den) (hl : 2 ≤ levels) (hp : 1 ≤ period) :
    ticksOfPw ((num : Rat) / (den : Rat)) levels period =
      max 1 (min ((2 * num * (levels : Int) + den * (period : Int)) / (2 * den * (period : Int))) ((levels : Int) - 1)) := by
  have hpulse : (num : Rat) / (den : Rat) * levels / period = ((num * levels : Int) : Rat) / ((den * period : Int) : Rat) := by
    push_cast
    rw [div_mul_eq_mul_div, div_div]
  have hpos : 0 < den * (period : Int) := Int.mul_pos hd (by omega)
  rw [ticksOfPw, hpulse, rhu_div _ hpos, clamp_eq (by omega), ← Int.mul_assoc, ← Int.mul_assoc]

/-- Settles O19: rounding half up is a floored division, and the clamp is a maximum and a minimum. -/
theorem tickConversionInIntegers : Obligations.TickConversionInIntegers := by
  unfold Obligations.TickConversionInIntegers
  exact fun num _ _ _ => ticksOfPw_div num

/-! ## The records -/

/-- Settles O18: the width in whole microseconds is a quotient by 1. -/
theorem servoPwWritesTick : Obligations.ServoPwWritesTick := by
  unfold Obligations.ServoPwWritesTick
  intro s channel width hi hl hp h0 h15
  have htick := ticksOfPw_div width.toInt (den := 1) Int.one_pos hl hp
  rw [Int.cast_one, div_one, Int.one_mul, Int.mul_one] at htick
  rw [← htick]
  exact congrArg Host.Outcome.next (servoPulse_ready hi h0 h15 _)

/-- Settles O20: the profile's pulse width is the straight line, clamped. -/
theorem servoCsWritesTick : Obligations.ServoCsWritesTick := by
  unfold Obligations.ServoCsWritesTick
  intro s channel speed q hi hvalid h0 h15 hq
  obtain ⟨-, -, hcs, -⟩ := hvalid
  have hpulse : continuousPulse s.params speed.toInt = max s.params.csMinUs (min q s.params.csMaxUs) := by
    rw [continuousPulse, clampRat_eq hcs, hq]
  rw [← hpulse]
  exact congrArg Host.Outcome.next (servoPulse_ready hi h0 h15 _)

/-- The normalised angle from the remainder of R127, by its three ranges. -/
theorem angNorm_eq {d n : Int} (h : (d + 45) % 360 = n) : angNorm d = if n ≤ 270 then n else if n < 315 then 270 else 0 := by
  subst h
  rfl

/-- Settles O21: the normalised angle is the snapped remainder, and its pulse width the interpolation, clamped. -/
theorem servoAngWritesTick : Obligations.ServoAngWritesTick := by
  unfold Obligations.ServoAngWritesTick
  intro s channel degrees n m q hi hvalid h0 h15 hn hm hq
  obtain ⟨-, -, -, hang, -⟩ := hvalid
  have hnorm : angNorm degrees.toInt = m := by rw [angNorm_eq hn.symm, hm]
  have hpulse : anglePulse s.params degrees.toInt = max s.params.angMinUs (min q s.params.angMaxUs) := by
    rw [anglePulse, clampRat_eq hang, hnorm, hq]
    rfl
  rw [← hpulse]
  exact congrArg Host.Outcome.next (servoPulse_ready hi h0 h15 _)

/-- Settles O22: the remainder modulo 360 drops the whole turns, and the three ranges of the input are the three rows of the table. -/
theorem angleSnapTable : Obligations.AngleSnapTable := by
  unfold Obligations.AngleSnapTable
  intro d k
  have hturns (h1 : -45 ≤ d) (h2 : d < 315) : (d + 360 * k + 45) % 360 = d + 45 := by omega
  refine ⟨fun h1 h2 => ?_, fun h1 h2 => ?_, fun h1 h2 => ?_⟩
  · rw [angNorm_eq (hturns h1 (by omega)), if_pos (by omega)]
  · rw [angNorm_eq (hturns (by omega) (by omega)), if_neg (by omega), if_pos (by omega)]
  · rw [angNorm_eq (hturns (by omega) h2), if_neg (by omega), if_neg (by omega)]

/-- Settles O23: the remainder modulo 360 is the one angle in [0, 360) that differs by whole turns. -/
theorem servoWideWritesTick : Obligations.ServoWideWritesTick := by
  unfold Obligations.ServoWideWritesTick
  intro s channel degrees n k q hi hvalid h0 h15 hn0 hn360 hdeg hq
  obtain ⟨-, -, -, -, hwide⟩ := hvalid
  have hreduced : emod degrees.toInt 360 = n := by
    rw [emod]
    omega
  have hpulse : widePulse s.params degrees.toInt = max s.params.wideMinUs (min q s.params.wideMaxUs) := by
    rw [widePulse, clampRat_eq hwide, hreduced, hq]
    rfl
  rw [← hpulse]
  exact congrArg Host.Outcome.next (servoPulse_ready hi h0 h15 _)

end Sys2Proof.Machine
end

section
/-!
PROOF. The pixel commands (spec/42_pixel.md, spec/20_memory.md section 1): creation, one pixel, the fill, the serpentine adapter and the
refresh.
-/

namespace Sys2Proof.Machine

/-! ## PIX_INIT -/

/-- An empty table is a black buffer (R27). -/
theorem fbBytes_of_black {s : State} (h : s.pix.buf = []) : fbBytes s = List.replicate (fbSize s) 0 := by
  rw [fbBytes, h, Memory.readBytes_nil]

/-- Settles O24: the matrix created, the two refreshes of its black buffer, the flag. -/
theorem pixInitCreatesMatrix : Obligations.PixInitCreatesMatrix := by
  unfold Obligations.PixInitCreatesMatrix
  intro s rows columns pin hi h0 hn
  have hp : pinOf s.params pin.toInt = some pin.toInt.toNat := pinOf_eq_some.2 ⟨by omega, by omega⟩
  have hrows := clamp_eq (show (1 : Int) ≤ 255 by decide) rows.toInt
  have hcols := clamp_eq (show (1 : Int) ≤ 255 by decide) columns.toInt
  have hexec := exec_pixInit_of_mapped hi hp rows columns
  refine ⟨_, _, hexec, ?_, ?_, Int.toNat_of_nonneg h0, rfl, fun _ => rfl, rfl, ?_⟩
  · change ((clamp rows.toInt 1 255).toNat : Int) = _
    omega
  · change ((clamp columns.toInt 1 255).toNat : Int) = _
    omega
  · obtain e | ⟨-, -, -, -, -, hblack, e⟩ := execPixInit_cases hexec
    · have hflag : true = s.pix.init := congrArg (fun t => t.pix.init) e
      exact nomatch hflag.trans hi
    · rwa [fbBytes_of_black hblack] at e

theorem exec_pixInit_of_init {s : State} (hi : s.pix.init = true) (rows columns pin : Word) :
    exec (.pixInit rows columns pin) s = .next s := if_pos hi

theorem exec_pixInit_of_unmapped {s : State} {pin : Word} (hp : pinOf s.params pin.toInt = none) (rows columns : Word) :
    exec (.pixInit rows columns pin) s = .next s := by
  change execPixInit rows columns pin s = _
  simp only [execPixInit, hp, ite_self]

/-- Settles O25: by the flag, else by the pin. -/
theorem pixInitOtherwiseSilent : Obligations.PixInitOtherwiseSilent := by
  unfold Obligations.PixInitOtherwiseSilent
  intro s rows columns pin h
  obtain hi | hp := h
  · exact exec_pixInit_of_init hi ..
  · exact exec_pixInit_of_unmapped (pinOf_eq_none.2 hp) ..

/-! ## One pixel -/

theorem exec_pixSet_of_uninit {s : State} (hi : s.pix.init = false) (y x r g b : Word) : exec (.pixSet y x r g b) s = .next s := by
  change execPixSet y x r g b s = _
  rw [execPixSet, if_neg (by simp [hi])]

/-- The offset of a pixel, from its clamped coordinates (R51). -/
theorem pixelOffset_eq {s : State} (hr : 1 ≤ s.pix.rows) (hc : 1 ≤ s.pix.cols) {y x : Int} {y' x' : Nat}
    (hy : (y' : Int) = max 0 (min y ((s.pix.rows : Int) - 1))) (hx : (x' : Int) = max 0 (min x ((s.pix.cols : Int) - 1))) :
    pixelOffset s y x = ((y' * s.pix.cols + x') * 3 : Nat) := by
  rw [pixelOffset, clamp_eq (by omega), clamp_eq (by omega), ← hy, ← hx]
  push_cast
  rfl

/-- The three bytes of a pixel read back as green, red, blue (R51). -/
theorem Memory.read_writeBytes_pixel {m : Memory} (hw : m.wf) (o : Nat) (r g b : Int) :
    (m.writeBytes o (pixelBytes r g b)).read o = colourByte g ∧ (m.writeBytes o (pixelBytes r g b)).read (o + 1) = colourByte r ∧
    (m.writeBytes o (pixelBytes r g b)).read (o + 2) = colourByte b := by
  simp [Memory.read_writeBytes hw, pixelBytes]

/-- Bytes outside the three of a pixel are as before. -/
theorem Memory.read_writeBytes_outside {m : Memory} (hw : m.wf) {o a : Nat} (r g b : Int) (ha : a < o ∨ o + 3 ≤ a) :
    (m.writeBytes o (pixelBytes r g b)).read a = m.read a := by
  rw [Memory.read_writeBytes hw]
  split
  · rw [List.getD_eq_default]
    rw [pixelBytes_length]
    omega
  · rfl

/-- Settles O26: the write of a created matrix stores its three bytes at the offset of the clamped coordinates, inside the buffer. -/
theorem pixSetWritesOnePixel : Obligations.PixSetWritesOnePixel := by
  unfold Obligations.PixSetWritesOnePixel
  refine fun s y x r g b => ⟨fun hi => exec_pixSet_of_uninit hi .., fun hi hr hc hw => ?_⟩
  refine ⟨_, exec_pixSet_of_init hi y x r g b, (setPixel_footprint ..).1, fun y' x' o hy hx ho => ?_⟩
  have hoffset := pixelOffset_eq hr hc hy hx
  rw [← ho] at hoffset
  obtain ⟨-, hend, -⟩ := pixelOffset_range hr hc y.toInt x.toInt
  rw [hoffset, fbSize] at hend
  rw [setPixel_of_created hr hc, hoffset, Int.toNat_natCast]
  obtain ⟨hgreen, hred, hblue⟩ := Memory.read_writeBytes_pixel hw o r.toInt g.toInt b.toInt
  refine ⟨by omega, ?_, ?_, ?_, fun a ha => Memory.read_writeBytes_outside hw _ _ _ ha⟩
  · rw [hgreen, colourByte_toNat]
  · rw [hred, colourByte_toNat]
  · rw [hblue, colourByte_toNat]

/-! ## The fill -/

theorem exec_pixFill_of_uninit {s : State} (hi : s.pix.init = false) (r g b : Word) : exec (.pixFill r g b) s = .next s := by
  change execPixFill r g b s = _
  rw [execPixFill, if_neg (by simp [hi])]

theorem exec_pixFill_of_init {s : State} (hi : s.pix.init = true) (r g b : Word) :
    exec (.pixFill r g b) s = .next (fillRows s.pix.cols r.toInt g.toInt b.toInt s.pix.rows s) := by
  change execPixFill r g b s = _
  rw [execPixFill, if_pos hi]

/-- Settles O27: the fill writes every row, and each of a pixel's three offsets has its own colour. -/
theorem pixFillWritesEveryPixel : Obligations.PixFillWritesEveryPixel := by
  unfold Obligations.PixFillWritesEveryPixel
  refine fun s r g b => ⟨fun hi => exec_pixFill_of_uninit hi .., fun hi _ _ hw => ?_⟩
  have hread := fillRows_read hw r.toInt g.toInt b.toInt (le_refl s.pix.rows)
  refine ⟨_, exec_pixFill_of_init hi r g b, (fillRows_footprint ..).1, fun i hpixel => ⟨?_, ?_, ?_⟩, fun a ha => ?_⟩
  · rw [hread, if_pos (by omega), show 3 * i % 3 = 0 by omega]
    exact colourByte_toNat _
  · rw [hread, if_pos (by omega), show (3 * i + 1) % 3 = 1 by omega]
    exact colourByte_toNat _
  · rw [hread, if_pos (by omega), show (3 * i + 2) % 3 = 2 by omega]
    exact colourByte_toNat _
  · rw [hread, if_neg (by omega)]

/-! ## The serpentine adapter -/

theorem exec_pixSets_of_other {s : State} (h : s.pix.init = false ∨ s.pix.rows ≠ 8 ∨ s.pix.cols ≠ 8) (y x r g b : Word) :
    exec (.pixSets y x r g b) s = .next s := by
  change execPixSets y x r g b s = _
  obtain hi | hdims := h
  · rw [execPixSets, if_neg (by simp [hi])]
  · rw [execPixSets, if_neg (not_and_or.2 hdims), ite_self]

theorem exec_pixSets_of_serpentine {s : State} (hi : s.pix.init = true) (hr : s.pix.rows = 8) (hc : s.pix.cols = 8) (y x r g b : Word) :
    exec (.pixSets y x r g b) s =
      .next (setPixel (serpentine y.toInt x.toInt).1 (serpentine y.toInt x.toInt).2 r.toInt g.toInt b.toInt s) := by
  change execPixSets y x r g b s = _
  rw [execPixSets, if_pos hi, if_pos ⟨hr, hc⟩]

/-- The serpentine map on clamped coordinates: odd columns run backwards (R157, D19). -/
theorem serpentine_eq {y x : Int} {y' x' c : Nat} (hy : (y' : Int) = max 0 (min y 7)) (hx : (x' : Int) = max 0 (min x 7))
    (hc : c = if x' % 2 = 0 then y' else 7 - y') : serpentine y x = ((x' : Int), (c : Int)) := by
  simp only [serpentine, emod, clamp_eq (show (0 : Int) ≤ 7 by decide), ← hy, ← hx]
  by_cases h : x' % 2 = 0
  · rw [if_pos (by omega), hc, if_pos h]
  · rw [if_neg (by omega), hc, if_neg h, Nat.cast_sub (by omega), Nat.cast_ofNat]

theorem toInt_ofNat_small {n : Nat} (h : n ≤ 7) : (BitVec.ofNat 32 n).toInt = n := by
  have htoNat : (BitVec.ofNat 32 n).toNat = n := by rw [BitVec.toNat_ofNat, Nat.mod_eq_of_lt (by omega)]
  rw [BitVec.toInt_eq_toNat_of_lt (by omega), htoNat]

/-- Settles O28: both commands are the pixel write at the serpentine coordinates, which lie in the matrix. -/
theorem pixSetsIsSerpentine : Obligations.PixSetsIsSerpentine := by
  unfold Obligations.PixSetsIsSerpentine
  refine fun s y x r g b => ⟨fun h => exec_pixSets_of_other h .., fun hi hr hc y' x' c hy hx hcol => ?_⟩
  have hc7 : c ≤ 7 := by
    rw [hcol]
    split <;> omega
  have hoffset : pixelOffset s x' c = ((x' * s.pix.cols + c) * 3 : Nat) := pixelOffset_eq (by omega) (by omega) (by omega) (by omega)
  rw [exec_pixSets_of_serpentine hi hr hc, serpentine_eq hy hx hcol]
  constructor
  · rw [exec_pixSet_of_init hi, toInt_ofNat_small (by omega), toInt_ofNat_small hc7]
  · rw [setPixel_of_created (by omega) (by omega), hoffset, Int.toNat_natCast, hc, Nat.mul_comm x']

/-- Settles O29: a closed table. -/
theorem serpentineTable : Obligations.SerpentineTable := by
  unfold Obligations.SerpentineTable
  decide

/-! ## The refresh -/

theorem exec_pixRefresh_of_uninit {s : State} (hi : s.pix.init = false) : exec .pixRefresh s = .next s := if_neg (by simp [hi])

theorem exec_pixRefresh_of_init {s : State} (hi : s.pix.init = true) : exec .pixRefresh s = .next (ledRefresh s) := if_pos hi

/-- The entries of a block read from the buffer are the buffer's bytes. -/
theorem Memory.eq_read_of_getElem? {m : Memory} {n a : Nat} {b : Byte} (h : (m.readBytes 0 n)[a]? = some b) : b = m.read a := by
  simp only [Memory.readBytes, List.getElem?_map, Option.map_eq_some_iff, List.getElem?_eq_some_iff, List.getElem_range,
    Nat.zero_add] at h
  obtain ⟨-, ⟨-, rfl⟩, rfl⟩ := h
  rfl

/-- Settles O30: what is sent is the buffer read whole. -/
theorem pixRefreshSendsWholeBuffer : Obligations.PixRefreshSendsWholeBuffer := by
  unfold Obligations.PixRefreshSendsWholeBuffer
  exact fun s => ⟨exec_pixRefresh_of_uninit, fun hi =>
    ⟨fbBytes s, Memory.readBytes_length .., fun _ _ => Memory.eq_read_of_getElem?, exec_pixRefresh_of_init hi⟩⟩

end Sys2Proof.Machine
end

section
/-!
PROOF. The ranging command (spec/43_ultrasonic.md): its three outcomes, the range of its result, the fallback rule and the alternation of a
sensor that does not answer.
-/

namespace Sys2Proof.Machine

/-! ## The three outcomes -/

/-- Answered at once: one attempt, and step 5 of R170. -/
theorem measurePin_of_echo {s : State} (h : pulseAnswer s ≠ 0) (p : Nat) (m : PullMode) (mul dv : Int) : measurePin p m mul dv s = { s with
    usr := { hist := tableSet 0 s.usr.hist p (pulseAnswer s), fbUsed := tableSet false s.usr.fbUsed p false,
             lastPw := pulseAnswer s, phase := .idle }
    res := BitVec.ofInt 32 (distance (pulseAnswer s) mul dv)
    env := s.env.afterPulse
    trace := s.trace ++ attemptTrace p m (pulseAnswer s) } := by
  simp only [measurePin, ranging_of_echo h, attempt_eq, rawWidth, bookkeeping, if_pos h]
  rfl

/-- Answered on the retry: two attempts with the delay between them, and step 5 of R170. -/
theorem measurePin_of_retry {s : State} (h0 : pulseAnswer s = 0) (h1 : secondPulse s ≠ 0) (p : Nat) (m : PullMode) (mul dv : Int) :
    measurePin p m mul dv s = { s with
      usr := { hist := tableSet 0 s.usr.hist p (secondPulse s), fbUsed := tableSet false s.usr.fbUsed p false,
               lastPw := secondPulse s, phase := .idle }
      res := BitVec.ofInt 32 (distance (secondPulse s) mul dv)
      env := s.env.afterPulse.afterPulse
      trace := s.trace ++ (attemptTrace p m 0 ++ [.delayUs 10000] ++ attemptTrace p m (secondPulse s)) } := by
  simp only [measurePin, ranging_of_timeout h0, rawWidth, bookkeeping, if_pos h1]
  rfl

/-- `USR_MEASURE` on a mapped pin with one of the three pull modes (R170, D21, D22, D25). -/
theorem exec_usrMeasure_of_selectors {s : State} {pin mode : Word} {p : Nat} {m : PullMode} (hp : pin.toInt = (p : Int))
    (hn : p < s.params.nPins) (hm : (mode.toInt = 0 ∧ m = .none) ∨ (mode.toInt = 1 ∧ m = .down) ∨ (mode.toInt = 2 ∧ m = .up))
    (mul dv : Word) : exec (.usrMeasure pin mode mul dv) s =
      .next (measurePin p m (max 0 (min mul.toInt 65535)) (max 1 (min dv.toInt 65535)) s) :=
  execUsrMeasure_of_selectors hp hn (pullModeOf_eq_some.2 hm) mul dv

/-- Settles O32: the first reading is not 0. -/
theorem measureWithEcho : Obligations.MeasureWithEcho := by
  unfold Obligations.MeasureWithEcho
  intro s pin mode mul dv p m w hp hn hm hw hne
  subst hw
  rw [exec_usrMeasure_of_selectors hp hn hm, measurePin_of_echo hne, distance]

/-- Settles O33: the first reading is 0 and the second is not. -/
theorem measureWithEchoOnRetry : Obligations.MeasureWithEchoOnRetry := by
  unfold Obligations.MeasureWithEchoOnRetry
  intro s pin mode mul dv p m w hp hn hm h0 hw hne
  subst hw
  rw [exec_usrMeasure_of_selectors hp hn hm, measurePin_of_retry h0 hne, distance, secondPulse]

/-- The result of two timeouts: 0 where the flag was set, else the scaled history (R174). -/
theorem fallback_result (flag : Bool) (last : PulseWidth) (mul dv : Int) : BitVec.ofInt 32 (distance (if flag then 0 else last) mul dv) =
    if flag then (0 : Word) else BitVec.ofInt 32 ((last.val : Int) * mul / dv) := by
  cases flag with
  | true => simp [distance]
  | false => rfl

/-- Settles O34: both readings are 0. -/
theorem measureTimedOut : Obligations.MeasureTimedOut := by
  unfold Obligations.MeasureTimedOut
  intro s pin mode mul dv p m hp hn hm h0 h1
  rw [exec_usrMeasure_of_selectors hp hn hm, measurePin_timeout h0 h1, fallback_result]

/-- Settles O35: a selector that does not resolve. -/
theorem measureBadSelector : Obligations.MeasureBadSelector := by
  unfold Obligations.MeasureBadSelector
  intro s pin mode mul dv h
  obtain ⟨t, ht⟩ := exec_completes (.usrMeasure pin mode mul dv) s
  obtain rfl | ⟨p, m, hp, hn, hm, -⟩ := execUsrMeasure_cases ht
  · exact ht
  · rw [pullModeOf_eq_some] at hm
    omega

/-- Settles O36: a bad selector writes 0, and a measurement a distance from operands clamped into their ranges. -/
theorem measuredDistanceInRange : Obligations.MeasuredDistanceInRange := by
  unfold Obligations.MeasuredDistanceInRange
  intro s pin mode mul dv
  obtain ⟨t, ht⟩ := exec_completes (.usrMeasure pin mode mul dv) s
  refine ⟨t, ht, ?_⟩
  obtain rfl | ⟨p, m, -, -, -, rfl⟩ := execUsrMeasure_cases ht
  · have hzero : (0 : Word).toInt = 0 := rfl
    exact ⟨hzero.ge, hzero.trans_le (by decide)⟩
  · obtain ⟨hmul0, hmul1⟩ := clamp_range mul.toInt (show (0 : Int) ≤ 65535 by decide)
    obtain ⟨hdv, -⟩ := clamp_range dv.toInt (show (1 : Int) ≤ 65535 by decide)
    obtain ⟨hist, fb, last, env, events, he, -⟩ := measurePin_eq p m (clamp mul.toInt 0 65535) (clamp dv.toInt 1 65535) s
    rw [he, toInt_ofInt_distance _ hmul0 hmul1 hdv]
    exact distance_range _ hmul0 hmul1 hdv

/-! ## The fallback rule -/

/-- The history after a store at pin `p`. -/
theorem histAt_of_stored {s t : State} {p : Nat} {w : PulseWidth} (hwf : tableWf 0 s.usr.hist)
    (h : t.usr.hist = tableSet 0 s.usr.hist p w) (q : Nat) : histAt t q = if q = p then w else histAt s q := by
  rw [histAt, h, tableGet_tableSet hwf.1, histAt]

/-- The flags after a store at pin `p`. -/
theorem fbUsedAt_of_stored {s t : State} {p : Nat} {b : Bool} (hwf : tableWf false s.usr.fbUsed)
    (h : t.usr.fbUsed = tableSet false s.usr.fbUsed p b) (q : Nat) : fbUsedAt t q = if q = p then b else fbUsedAt s q := by
  rw [fbUsedAt, h, tableGet_tableSet hwf.1, fbUsedAt]

/-- A success at pin `p`: its history is the reading, its flag clear, the other pins as before (R170, step 5). -/
theorem fallback_of_success {s t : State} {p : Nat} {w : PulseWidth} (hhist : tableWf 0 s.usr.hist) (hflags : tableWf false s.usr.fbUsed)
    (hh : t.usr.hist = tableSet 0 s.usr.hist p w) (hf : t.usr.fbUsed = tableSet false s.usr.fbUsed p false) :
    histAt t p = w ∧ fbUsedAt t p = false ∧ ∀ q, q ≠ p → histAt t q = histAt s q ∧ fbUsedAt t q = fbUsedAt s q := by
  have hlast := histAt_of_stored hhist hh
  have hflag := fbUsedAt_of_stored hflags hf
  refine ⟨?_, ?_, fun q hq => ⟨?_, ?_⟩⟩
  · rw [hlast, if_pos rfl]
  · rw [hflag, if_pos rfl]
  · rw [hlast, if_neg hq]
  · rw [hflag, if_neg hq]

/-- Settles O37: by the outcome, each of which stores at the pin only. -/
theorem fallbackFlagAndHistory : Obligations.FallbackFlagAndHistory := by
  unfold Obligations.FallbackFlagAndHistory
  intro s t pin mode mul dv p m first second hhist hflags hp hn hm hfirst hsecond hexec
  rw [exec_usrMeasure_of_selectors hp hn hm] at hexec
  replace hexec := Host.Outcome.next.inj hexec
  replace hsecond : second = secondPulse s := hsecond
  subst hfirst hsecond
  by_cases h0 : pulseAnswer s = 0
  · by_cases h1 : secondPulse s = 0
    · rw [measurePin_timeout h0 h1, fallback_result] at hexec
      have hkept (q : Nat) : histAt t q = histAt s q := by
        rw [← hexec]
        rfl
      have hflag := fbUsedAt_of_stored (t := t) hflags (by rw [← hexec])
      refine ⟨fun _ => ?_, fun hne => absurd h0 hne, fun _ hne => absurd h1 hne, fun _ _ => ⟨hkept p, by rw [← hexec]⟩, ?_,
        fun q hq => ⟨hkept q, by rw [hflag, if_neg hq]⟩⟩
      · rw [← hexec, h1]
      · simp [hflag, h0, h1]
    · rw [measurePin_of_retry h0 h1] at hexec
      obtain ⟨hlast, hclear, hother⟩ := fallback_of_success (t := t) hhist hflags (by rw [← hexec]) (by rw [← hexec])
      exact ⟨fun _ => by rw [← hexec], fun hne => absurd h0 hne, fun _ _ => hlast, fun _ hz => absurd hz h1, by simp [hclear, h1], hother⟩
  · rw [measurePin_of_echo h0] at hexec
    obtain ⟨hlast, hclear, hother⟩ := fallback_of_success (t := t) hhist hflags (by rw [← hexec]) (by rw [← hexec])
    exact ⟨fun hz => absurd hz h0, fun _ => hlast, fun hz => absurd hz h0, fun hz => absurd hz h0, by simp [hclear, h0], hother⟩

/-! ## The alternation property -/

/-- What `k` measurements on pin `p` whose sensor does not answer leave of `s`: the history and the parameters, two draws for each, and
the pin's flag set after an odd number of them (R175). -/
structure AfterTimeouts (s : State) (p k : Nat) (t : State) : Prop where
  params : t.params = s.params
  flagsWf : tableWf false t.usr.fbUsed
  hist : histAt t p = histAt s p
  env : t.env = Env.afterPulse^[2 * k] s.env
  flag : fbUsedAt t p = decide (k % 2 = 1)

/-- The answer a `PulseIn` gets is a matter of the draws before it alone. -/
theorem NoAnswerFor.pulseAnswer_eq_zero {s t : State} {n j : Nat} (h : NoAnswerFor s n) (hj : j < n)
    (henv : t.env = Env.afterPulse^[j] s.env) : pulseAnswer t = 0 := by
  have h0 := h j hj
  rw [← henv] at h0
  exact h0

theorem AfterTimeouts.draws {s t : State} {p k n : Nat} (h : AfterTimeouts s p k t) (hn : NoAnswerFor s (2 * n)) (hk : k < n) :
    pulseAnswer t = 0 ∧ secondPulse t = 0 := by
  have hsecond : t.env.afterPulse = Env.afterPulse^[2 * k + 1] s.env := by rw [h.env, Function.iterate_succ_apply']
  exact ⟨hn.pulseAnswer_eq_zero (j := 2 * k) (by omega) h.env, hn.pulseAnswer_eq_zero (j := 2 * k + 1) (by omega) hsecond⟩

/-- The next measurement times out too, and turns the flag over. -/
theorem AfterTimeouts.next {s t : State} {p k n : Nat} (h : AfterTimeouts s p k t) (hn : NoAnswerFor s (2 * n)) (hk : k < n)
    (m : PullMode) (mul dv : Int) : AfterTimeouts s p (k + 1) (measurePin p m mul dv t) := by
  obtain ⟨h0, h1⟩ := h.draws hn hk
  rw [measurePin_timeout h0 h1]
  refine ⟨h.params, tableSet_wf h.flagsWf .., h.hist, ?_, ?_⟩
  · rw [show 2 * (k + 1) = (2 * k + 1) + 1 by omega, Function.iterate_succ_apply', Function.iterate_succ_apply', ← h.env]
  · rw [fbUsedAt_of_stored h.flagsWf rfl, if_pos rfl, h.flag]
    obtain hk2 | hk2 := Nat.mod_two_eq_zero_or_one k
    · simp [Nat.add_mod, hk2]
    · simp [Nat.add_mod, hk2]

/-- The first `n` measurements of a sensor that does not answer. -/
theorem afterTimeouts_iterate {s : State} {p n : Nat} (hwf : tableWf false s.usr.fbUsed) (hflag : fbUsedAt s p = false)
    (hn : NoAnswerFor s (2 * n)) (m : PullMode) (mul dv : Int) {k : Nat} (hk : k ≤ n) :
    AfterTimeouts s p k ((measurePin p m mul dv)^[k] s) := by
  induction k with
  | zero => exact ⟨rfl, hwf, rfl, rfl, hflag⟩
  | succ k ih =>
    rw [Function.iterate_succ_apply']
    exact (ih (by omega)).next hn (by omega) m mul dv

/-- Settles O38: the run iterates the measurement, whose flag is clear before every second call. -/
theorem fallbackAlternates : Obligations.FallbackAlternates := by
  unfold Obligations.FallbackAlternates
  intro n s pin mode mul dv p m h mul' dv' hwf hp hpins hm hmul hdv hn hhist hflag
  refine ⟨fun k => (measurePin p m mul' dv')^[k] s, rfl, fun k hk => ?_⟩
  have hrun : AfterTimeouts s p k ((measurePin p m mul' dv')^[k] s) := afterTimeouts_iterate hwf hflag hn m mul' dv' hk.le
  simp only [Function.iterate_succ_apply']
  generalize (measurePin p m mul' dv')^[k] s = t at hrun
  have hnext := hrun.next hn hk m mul' dv'
  obtain ⟨h0, h1⟩ := hrun.draws hn hk
  refine ⟨?_, ?_, hnext.hist.trans hhist, ?_⟩
  · rw [exec_usrMeasure_of_selectors hp (hrun.params ▸ hpins) hm, hmul, hdv]
  · rw [measurePin_timeout h0 h1, toInt_ofInt_distance _ (by omega) (by omega) (by omega), hrun.flag, hrun.hist, hhist]
    obtain hk2 | hk2 := Nat.mod_two_eq_zero_or_one k
    · simp [hk2, distance]
    · simp [hk2, distance]
  · rw [measurePin_timeout h0 h1]

end Sys2Proof.Machine
end

section
/-!
PROOF. The MP3 commands (spec/44_mp3.md, spec/30_encoding.md section 4): the redirection of the serial link, the frames transmitted, and the
high-level operations as sends.
-/

namespace Sys2Proof.Machine

/-! ## MP3_INIT -/

theorem exec_mp3Init_of_mapped {s : State} {tx rx : Word} {a b : Nat} (hi : s.mp3.init = false) (ha : pinOf s.params tx.toInt = some a)
    (hb : pinOf s.params rx.toInt = some b) : exec (.mp3Init tx rx) s = .next { s with
      mp3 := { init := true, tx := a, rx := b }
      trace := s.trace ++ [.uartCfg a b 9600] } := by
  change execMp3Init tx rx s = _
  simp only [execMp3Init, hi, ha, hb, Bool.false_eq_true, if_false]
  rfl

theorem exec_mp3Init_of_init {s : State} (hi : s.mp3.init = true) (tx rx : Word) : exec (.mp3Init tx rx) s = .next s := if_pos hi

theorem exec_mp3Init_of_unmapped {s : State} {tx rx : Word} (h : pinOf s.params tx.toInt = none ∨ pinOf s.params rx.toInt = none) :
    exec (.mp3Init tx rx) s = .next s := by
  change execMp3Init tx rx s = _
  obtain htx | hrx := h
  · simp only [execMp3Init, htx, ite_self]
  · cases htx : pinOf s.params tx.toInt with
    | none => simp only [execMp3Init, htx, ite_self]
    | some a => simp only [execMp3Init, htx, hrx, ite_self]

/-- Settles O39: two mapped pins redirect the link; the flag, or an unmapped pin, leaves it. -/
theorem mp3InitOnce : Obligations.Mp3InitOnce := by
  unfold Obligations.Mp3InitOnce
  refine fun s tx rx a b => ⟨fun hi ha hb hna hnb => ?_, fun h => ?_⟩
  · exact exec_mp3Init_of_mapped hi (pinOf_eq_some.2 ⟨ha, hna⟩) (pinOf_eq_some.2 ⟨hb, hnb⟩)
  · obtain hi | hpins := h
    · exact exec_mp3Init_of_init hi tx rx
    · refine exec_mp3Init_of_unmapped ?_
      rw [pinOf_eq_none, pinOf_eq_none]
      omega

/-! ## Frames -/

/-- A frame sent for a command byte (R191). -/
theorem sendFrame_of_byte {s : State} {p : List Byte} (hi : s.mp3.init = true) (hp : p.length ≤ 250) (c : Byte) :
    sendFrame c.toNat p s = { s with trace := s.trace ++ [.uartTx (spelledFrame c.toNat p)] } := by
  rw [sendFrame_of_ready hi hp, lo8_toNat_cast, frame_eq, emit]

/-- A frame sent for a command operand: its low byte (R191, R72). -/
theorem sendFrame_of_word {s : State} {p : List Byte} (hi : s.mp3.init = true) (hp : p.length ≤ 250) (c : Word) :
    sendFrame c.toInt p s = { s with trace := s.trace ++ [.uartTx (spelledFrame c.toNat p)] } := by
  rw [sendFrame_of_ready hi hp, frame_eq, lo8_toInt, spelledFrame_mod, emit]

/-- Settles O40: two of the commands take their command byte from an operand, the third from the parameters. -/
theorem payloadCommandsTransmitFrame : Obligations.PayloadCommandsTransmitFrame := by
  unfold Obligations.PayloadCommandsTransmitFrame
  intro s command payload hi hp
  exact ⟨congrArg Host.Outcome.next (sendFrame_of_word hi hp command), congrArg Host.Outcome.next (sendFrame_of_word hi hp command),
    congrArg Host.Outcome.next (sendFrame_of_byte hi hp s.params.mp3CmdPlayname)⟩

/-- Settles O41: every sending command is one send. -/
theorem sendingFailsSilently : Obligations.SendingFailsSilently := by
  unfold Obligations.SendingFailsSilently
  refine fun s command payload => ⟨fun h => ?_, fun hi => ?_⟩
  · have hsilent (c : Int) : Host.Outcome.next (sendFrame c payload s) = (.next s : Result) := congrArg Host.Outcome.next <|
      h.elim (fun hi => sendFrame_of_uninit hi c payload) (fun hlong => sendFrame_of_long hlong c s)
    exact ⟨hsilent _, hsilent _, hsilent _⟩
  · have hsilent (c : Int) (p : List Byte) : Host.Outcome.next (sendFrame c p s) = (.next s : Result) :=
      congrArg Host.Outcome.next (sendFrame_of_uninit hi c p)
    exact ⟨hsilent .., hsilent .., hsilent .., hsilent .., hsilent .., hsilent ..⟩

/-- The frame of a command without a payload: its checksum is 0x7E + 3 more than the command byte (R79). -/
theorem frame_nil (c : Byte) : frame c [] = [0x7E, 3, c, 0x81 + c, 0xEF] := by
  have hsum : frameChecksum c [] = 0x81 + c := by
    apply BitVec.eq_of_toNat_eq
    rw [frameChecksum_toNat, BitVec.toNat_add]
    rfl
  rw [frame, hsum]
  rfl

theorem sendFrame_nil {s : State} (hi : s.mp3.init = true) (c : Byte) :
    sendFrame c.toNat [] s = { s with trace := s.trace ++ [.uartTx [0x7E, 3, c, 0x81 + c, 0xEF]] } := by
  rw [sendFrame_of_ready (p := []) hi (Nat.zero_le _), lo8_toNat_cast, frame_nil, emit]

/-- Settles O42: four sends without a payload. -/
theorem plainCommandsTransmitFrame : Obligations.PlainCommandsTransmitFrame := by
  unfold Obligations.PlainCommandsTransmitFrame
  exact fun s hi => ⟨congrArg Host.Outcome.next (sendFrame_nil hi s.params.mp3CmdPlay),
    congrArg Host.Outcome.next (sendFrame_nil hi s.params.mp3CmdStop), congrArg Host.Outcome.next (sendFrame_nil hi s.params.mp3CmdNext),
    congrArg Host.Outcome.next (sendFrame_nil hi s.params.mp3CmdPrev)⟩

/-- A clamped operand as the byte of a natural number (R201, R202). -/
theorem lo8_clamp {lo hi : Int} (h : lo ≤ hi) {x : Int} {v : Nat} (hv : (v : Int) = max lo (min x hi)) :
    lo8 (clamp x lo hi) = BitVec.ofNat 8 v := by
  rw [clamp_eq h, ← hv, lo8, BitVec.ofInt_natCast]

/-- Settles O43: each operand is clamped and sent as the one payload byte. -/
theorem numberCommandsTransmitFrame : Obligations.NumberCommandsTransmitFrame := by
  unfold Obligations.NumberCommandsTransmitFrame
  intro s x v n hi hv hn
  have hvol : lo8 (clamp x.toInt 0 31) = BitVec.ofNat 8 v := lo8_clamp (by decide) hv
  have hnum : lo8 (clamp x.toInt 1 255) = BitVec.ofNat 8 n := lo8_clamp (by decide) hn
  rw [← hvol, ← hnum]
  exact ⟨congrArg Host.Outcome.next (sendFrame_of_byte hi (by simp) s.params.mp3CmdVol),
    congrArg Host.Outcome.next (sendFrame_of_byte hi (by simp) s.params.mp3CmdPlaynum)⟩

/-! ## The high-level operations -/

/-- A command byte widened to an operand slot keeps its value. -/
theorem toInt_setWidth_byte (c : Byte) : (c.setWidth 32).toInt = c.toNat := by
  have hc := c.isLt
  have htoNat : (c.setWidth 32).toNat = c.toNat := by rw [BitVec.toNat_setWidth, Nat.mod_eq_of_lt (by omega)]
  rw [BitVec.toInt_eq_toNat_of_lt (by omega), htoNat]

/-- Settles O44: both sides are the same send, the operand being the command byte. -/
theorem highLevelCommandsAreSends : Obligations.HighLevelCommandsAreSends := by
  unfold Obligations.HighLevelCommandsAreSends
  intro s x name v n hv hn
  have hvol : lo8 (clamp x.toInt 0 31) = BitVec.ofNat 8 v := lo8_clamp (by decide) hv
  have hnum : lo8 (clamp x.toInt 1 255) = BitVec.ofNat 8 n := lo8_clamp (by decide) hn
  have hsend (c : Byte) (p : List Byte) :
      Host.Outcome.next (sendFrame c.toNat p s) = (.next (sendFrame (c.setWidth 32).toInt p s) : Result) := by
    rw [toInt_setWidth_byte]
  rw [← hvol, ← hnum]
  exact ⟨hsend .., hsend .., hsend .., hsend .., hsend .., hsend .., hsend ..⟩

end Sys2Proof.Machine
end

section
/-!
PROOF. The frames of the commands (spec/10_state.md section 7, the table of writers): what each unit's commands leave unchanged, and that
the pixel unit goes its own way (spec/70_reset_and_hazards.md section 2).
-/

namespace Sys2Proof.Machine

/-! ## PWM, motor and servo commands -/

/-- Settles O55: `PWM_CFG` writes its unit only, and the other commands have the footprint of channel writes and the initialisation. -/
theorem pwmCommandsFrame : Obligations.PwmCommandsFrame := by
  unfold Obligations.PwmCommandsFrame
  intro s t a b c i hi h
  simp only [List.mem_cons, List.not_mem_nil, or_false] at hi
  have hfootprint (hf : PwmFootprint s t) : t.pix = s.pix ∧ (∀ o, t.pix.buf.read o = s.pix.buf.read o) ∧ t.usr = s.usr ∧ t.mp3 = s.mp3 ∧
      t.res = s.res ∧ t.params = s.params ∧ t.port = s.port ∧ t.env.pulses = s.env.pulses ∧
      (i ≠ .pwmCfg a b c → t.pwm = { s.pwm with init := t.pwm.init }) := by
    obtain ⟨init, env, events, rfl, -, -, hpulses, -⟩ := hf
    exact ⟨rfl, fun _ => rfl, rfl, rfl, rfl, rfl, rfl, hpulses, fun _ => rfl⟩
  obtain rfl | rfl | rfl | rfl | hservo := hi
  · obtain rfl | ⟨-, e, -⟩ := execPwmCfg_cases h
    · exact hfootprint (.refl _)
    · rw [e]
      exact ⟨rfl, fun _ => rfl, rfl, rfl, rfl, rfl, rfl, rfl, fun hne => absurd rfl hne⟩
  · exact hfootprint (execPwmInit_footprint h)
  · obtain rfl := Host.Outcome.next.inj h
    exact hfootprint (setChannel_footprint ..)
  · exact hfootprint (execMotor_footprint h)
  · obtain rfl | rfl | rfl | rfl := hservo <;> (obtain rfl := Host.Outcome.next.inj h; exact hfootprint (setChannel_footprint ..))

/-! ## Pixel commands -/

/-- What the pixel commands may change: their unit and the trace. -/
def PixelFrame (s t : State) : Prop := t = { s with pix := t.pix, trace := t.trace }

theorem BufFootprint.pixelFrame {s t : State} (h : BufFootprint s t) : PixelFrame s t := by
  obtain ⟨e, -⟩ := h
  rw [PixelFrame, e]

theorem execPixInit_pixelFrame {r c p : Word} {s t : State} (h : execPixInit r c p s = .next t) : PixelFrame s t := by
  obtain rfl | ⟨-, -, -, -, -, -, e⟩ := execPixInit_cases h
  · rfl
  · rw [PixelFrame, e]

theorem execPixRefresh_pixelFrame {s t : State} (h : execPixRefresh s = .next t) : PixelFrame s t := by
  obtain rfl | ⟨-, rfl⟩ := execPixRefresh_cases h <;> rfl

theorem BufFootprint.trace_eq {s t : State} (h : BufFootprint s t) : t.trace = s.trace := by
  obtain ⟨e, -⟩ := h
  rw [e]

theorem BufFootprint.pix_eq {s t : State} (h : BufFootprint s t) : t.pix = { s.pix with buf := t.pix.buf } := by
  obtain ⟨e, -⟩ := h
  rw [e]

theorem BufFootprint.read_beyond {s t : State} (h : BufFootprint s t) {a : Nat} (ha : Machine.fbSize s ≤ a) (hw : s.pix.buf.wf) :
    t.pix.buf.read a = s.pix.buf.read a := by
  obtain ⟨-, -, hread, -⟩ := h
  exact hread a ha hw

/-- Whether it stores or not, a pixel write leaves the bytes outside its pixel. -/
theorem setPixel_read_outside {s : State} (hw : s.pix.buf.wf) {y x : Int} {o a : Nat} (ho : (o : Int) = pixelOffset s y x)
    (ha : a < o ∨ o + 3 ≤ a) (r g b : Int) : (setPixel y x r g b s).pix.buf.read a = s.pix.buf.read a := by
  obtain h | ⟨-, -, h⟩ := setPixel_cases y x r g b s
  · rw [h]
  · rw [h, ← ho, Int.toNat_natCast]
    exact Memory.read_writeBytes_outside hw r g b ha

theorem exec_pixSet_read_outside {s t : State} {y x r g b : Word} (h : exec (.pixSet y x r g b) s = .next t) (hw : s.pix.buf.wf) {o a : Nat}
    (ho : (o : Int) = pixelOffset s y.toInt x.toInt) (ha : a < o ∨ o + 3 ≤ a) : t.pix.buf.read a = s.pix.buf.read a := by
  obtain rfl := Host.Outcome.next.inj h
  split
  · exact setPixel_read_outside hw ho ha ..
  · rfl

theorem exec_pixSets_read_outside {s t : State} {y x r g b : Word} (h : exec (.pixSets y x r g b) s = .next t) (hw : s.pix.buf.wf)
    {o a : Nat} (ho : (o : Int) = pixelOffset s (serpentine y.toInt x.toInt).1 (serpentine y.toInt x.toInt).2)
    (ha : a < o ∨ o + 3 ≤ a) : t.pix.buf.read a = s.pix.buf.read a := by
  obtain rfl := Host.Outcome.next.inj h
  split_ifs
  · exact setPixel_read_outside hw ho ha ..
  · rfl
  · rfl

/-- What the pixel commands leave unchanged, before the clauses that are about one of them. -/
theorem PixelFrame.others {s t : State} (h : PixelFrame s t) {clauses : Prop} (hc : clauses) : t.pwm = s.pwm ∧ t.usr = s.usr ∧
    t.mp3 = s.mp3 ∧ t.res = s.res ∧ t.params = s.params ∧ t.port = s.port ∧ t.env = s.env ∧ clauses := by
  rw [h]
  exact ⟨rfl, rfl, rfl, rfl, rfl, rfl, rfl, hc⟩

/-- Settles O56: the units' frame is the same for all five commands; each of the clauses is about one of them. -/
theorem pixelCommandsFrame : Obligations.PixelCommandsFrame := by
  unfold Obligations.PixelCommandsFrame
  intro s t y x r g b i hw hi h
  simp only [List.mem_cons, List.not_mem_nil, or_false] at hi
  obtain rfl | rfl | rfl | rfl | rfl := hi
  · exact (execPixInit_pixelFrame h).others ⟨nofun, nofun, nofun, nofun⟩
  · have hf := execPixSet_footprint h
    exact hf.pixelFrame.others
      ⟨fun _ => ⟨hf.trace_eq, hf.pix_eq, fun _ ho _ ha => exec_pixSet_read_outside h hw ho ha⟩, nofun, nofun, nofun⟩
  · have hf := execPixFill_footprint h
    exact hf.pixelFrame.others ⟨nofun, nofun, fun _ => ⟨hf.trace_eq, hf.pix_eq, fun _ ha => hf.read_beyond ha hw⟩, nofun⟩
  · have hf := execPixSets_footprint h
    exact hf.pixelFrame.others
      ⟨nofun, fun _ => ⟨hf.trace_eq, hf.pix_eq, fun _ ho _ ha => exec_pixSets_read_outside h hw ho ha⟩, nofun, nofun⟩
  · refine (execPixRefresh_pixelFrame h).others ⟨nofun, nofun, nofun, fun _ => ?_⟩
    obtain rfl | ⟨-, rfl⟩ := execPixRefresh_cases h <;> rfl

/-! ## The pixel unit alone -/

/-- Two runs of a pixel command from one pixel unit end in one pixel unit and emit the same events. -/
structure SamePixelRun (s t s' t' : State) : Prop where
  pix : t'.pix = t.pix
  events : ∃ events, t.trace = s.trace ++ events ∧ t'.trace = s'.trace ++ events

theorem SamePixelRun.refl {s s' : State} (h : s'.pix = s.pix) : SamePixelRun s s s' s' :=
  ⟨h, [], by rw [List.append_nil], by rw [List.append_nil]⟩

/-- Writes to the buffer emit nothing. -/
theorem SamePixelRun.of_buf {s t s' t' : State} (h : t'.pix = t.pix) (hf : BufFootprint s t) (hf' : BufFootprint s' t') :
    SamePixelRun s t s' t' :=
  ⟨h, [], by rw [hf.trace_eq, List.append_nil], by rw [hf'.trace_eq, List.append_nil]⟩

theorem SamePixelRun.trans {s t u s' t' u' : State} (h : SamePixelRun s t s' t') (h' : SamePixelRun t u t' u') : SamePixelRun s u s' u' := by
  obtain ⟨-, events, he, he'⟩ := h
  obtain ⟨hpix, events', hu, hu'⟩ := h'
  exact ⟨hpix, events ++ events', by rw [hu, he, List.append_assoc], by rw [hu', he', List.append_assoc]⟩

theorem setPixel_pix_congr {s s' : State} (h : s'.pix = s.pix) (y x r g b : Int) :
    (setPixel y x r g b s').pix = (setPixel y x r g b s).pix := by
  have hoffset : pixelOffset s' y x = pixelOffset s y x := by rw [pixelOffset, pixelOffset, h]
  have hsize : fbSize s' = fbSize s := by rw [fbSize, fbSize, h]
  rw [setPixel, setPixel, memWrite, memWrite, hoffset, hsize]
  split_ifs
  · simp only [h]
  · exact h

theorem fillRow_pix_congr {s s' : State} (h : s'.pix = s.pix) (row : Nat) (r g b : Int) (n : Nat) :
    (fillRow row r g b n s').pix = (fillRow row r g b n s).pix := by
  induction n with
  | zero => exact h
  | succ n ih => exact setPixel_pix_congr ih ..

theorem fillRows_pix_congr {s s' : State} (h : s'.pix = s.pix) (cols : Nat) (r g b : Int) (m : Nat) :
    (fillRows cols r g b m s').pix = (fillRows cols r g b m s).pix := by
  induction m with
  | zero => exact h
  | succ m ih => exact fillRow_pix_congr ih ..

/-- A refresh sends what the pixel unit holds. -/
theorem ledRefresh_samePixelRun {s s' : State} (h : s'.pix = s.pix) : SamePixelRun s (ledRefresh s) s' (ledRefresh s') :=
  ⟨h, _, rfl, by rw [ledRefresh_trace, fbBytes, fbBytes, fbSize, fbSize, h]⟩

theorem createMatrix_samePixelRun {s s' : State} (h : s'.pix = s.pix) (rows cols : Int) (p : Nat) :
    SamePixelRun s (createMatrix rows cols p s) s' (createMatrix rows cols p s') :=
  ⟨by simp only [createMatrix, h], [], by rw [List.append_nil, createMatrix_trace], by rw [List.append_nil, createMatrix_trace]⟩

/-- The creation of the matrix, step by step. -/
theorem exec_pixInit_samePixelRun {s s' t : State} (hpix : s'.pix = s.pix) (hparams : s'.params = s.params) {rows cols pin : Word}
    (h : exec (.pixInit rows cols pin) s = .next t) : ∃ t', exec (.pixInit rows cols pin) s' = .next t' ∧ SamePixelRun s t s' t' := by
  cases hi : s.pix.init with
  | true =>
    obtain rfl := Host.Outcome.next.inj ((exec_pixInit_of_init hi ..).symm.trans h)
    exact ⟨s', exec_pixInit_of_init (hpix ▸ hi) .., .refl hpix⟩
  | false =>
    cases hp : pinOf s.params pin.toInt with
    | none =>
      obtain rfl := Host.Outcome.next.inj ((exec_pixInit_of_unmapped hp ..).symm.trans h)
      exact ⟨s', exec_pixInit_of_unmapped (hparams ▸ hp) .., .refl hpix⟩
    | some p =>
      obtain rfl := Host.Outcome.next.inj ((exec_pixInit_of_mapped hi hp ..).symm.trans h)
      refine ⟨_, exec_pixInit_of_mapped (hpix ▸ hi) (hparams ▸ hp) .., ?_⟩
      have hcreate := createMatrix_samePixelRun hpix rows.toInt cols.toInt p
      have hrun := (hcreate.trans (ledRefresh_samePixelRun hcreate.pix)).trans (ledRefresh_samePixelRun hcreate.pix)
      exact ⟨by simp only [setPixInit, hrun.pix], hrun.events⟩

/-- Settles O59: the branches of each command and what they store and send are read from the pixel unit and the parameters. -/
theorem pixelUnitIndependent : Obligations.PixelUnitIndependent := by
  unfold Obligations.PixelUnitIndependent
  intro s s' t y x r g b i hi hpix hparams h
  suffices hrun : ∃ t', exec i s' = .next t' ∧ SamePixelRun s t s' t' by
    obtain ⟨t', ht', hsame, events, he, he'⟩ := hrun
    exact ⟨t', events, ht', hsame, he, he'⟩
  simp only [List.mem_cons, List.not_mem_nil, or_false] at hi
  obtain rfl | rfl | rfl | rfl | rfl := hi
  · exact exec_pixInit_samePixelRun hpix hparams h
  · refine ⟨_, rfl, .of_buf ?_ (execPixSet_footprint h) (execPixSet_footprint rfl)⟩
    obtain rfl := Host.Outcome.next.inj h
    rw [hpix]
    split
    · exact setPixel_pix_congr hpix ..
    · exact hpix
  · refine ⟨_, rfl, .of_buf ?_ (execPixFill_footprint h) (execPixFill_footprint rfl)⟩
    obtain rfl := Host.Outcome.next.inj h
    rw [hpix]
    split
    · exact fillRows_pix_congr hpix ..
    · exact hpix
  · refine ⟨_, rfl, .of_buf ?_ (execPixSets_footprint h) (execPixSets_footprint rfl)⟩
    obtain rfl := Host.Outcome.next.inj h
    rw [hpix]
    split_ifs
    · exact setPixel_pix_congr hpix ..
    · exact hpix
    · exact hpix
  · cases hi : s.pix.init with
    | true =>
      obtain rfl := Host.Outcome.next.inj ((exec_pixRefresh_of_init hi).symm.trans h)
      exact ⟨_, exec_pixRefresh_of_init (hpix ▸ hi), ledRefresh_samePixelRun hpix⟩
    | false =>
      obtain rfl := Host.Outcome.next.inj ((exec_pixRefresh_of_uninit hi).symm.trans h)
      exact ⟨s', exec_pixRefresh_of_uninit (hpix ▸ hi), .refl hpix⟩

/-! ## USR_MEASURE -/

/-- Settles O57: a bad selector writes `RES`, and a measurement its unit, `RES`, the draws of the sensor and the trace. -/
theorem measureFrame : Obligations.MeasureFrame := by
  unfold Obligations.MeasureFrame
  intro s t pin mode mul dv h
  obtain rfl | ⟨p, m, -, -, -, rfl⟩ := execUsrMeasure_cases h
  · exact ⟨rfl, rfl, fun _ => rfl, rfl, rfl, rfl, rfl, id⟩
  · obtain ⟨hist, fb, last, env, events, he, -, hreads, -⟩ := measurePin_eq p m (clamp mul.toInt 0 65535) (clamp dv.toInt 1 65535) s
    rw [he]
    exact ⟨rfl, rfl, fun _ => rfl, rfl, rfl, rfl, hreads, fun _ => rfl⟩

/-! ## MP3 commands -/

theorem SendFootprint.frame {s t : State} (h : SendFootprint s t) : t = { s with trace := t.trace } := by
  obtain rfl | ⟨-, c, p, -, rfl⟩ := h <;> rfl

/-- Settles O58: `MP3_INIT` writes its unit and the trace, a send the trace only. -/
theorem mp3CommandsFrame : Obligations.Mp3CommandsFrame := by
  unfold Obligations.Mp3CommandsFrame
  intro s t a b p i hi h
  have hsend (hf : SendFootprint s t) :
      t = { s with mp3 := t.mp3, trace := t.trace } ∧ (∀ o, t.pix.buf.read o = s.pix.buf.read o) ∧ (i ≠ .mp3Init a b → t.mp3 = s.mp3) := by
    rw [hf.frame]
    exact ⟨rfl, fun _ => rfl, fun _ => rfl⟩
  simp only [List.mem_cons, List.not_mem_nil, or_false] at hi
  obtain rfl | hi := hi
  · obtain rfl | ⟨-, tx, rx, -, -, rfl⟩ := execMp3Init_cases h
    · exact hsend (.inl rfl)
    · exact ⟨rfl, fun _ => rfl, fun hne => absurd rfl hne⟩
  · obtain rfl | rfl | rfl | rfl | rfl | rfl | rfl | rfl | rfl := hi <;>
      (obtain rfl := Host.Outcome.next.inj h; exact hsend (sendFrame_footprint ..))

/-! ## The result register -/

theorem PwmFootprint.res_eq {s t : State} (h : PwmFootprint s t) : t.res = s.res := by
  obtain ⟨init, env, events, rfl, -⟩ := h
  rfl

theorem PixelFrame.res_eq {s t : State} (h : PixelFrame s t) : t.res = s.res := by
  rw [h]

theorem SendFootprint.res_eq {s t : State} (h : SendFootprint s t) : t.res = s.res := by
  rw [h.frame]

/-- Settles O54: by the command, through its unit's frame. -/
theorem onlyMeasureWritesRes : Obligations.OnlyMeasureWritesRes := by
  unfold Obligations.OnlyMeasureWritesRes
  intro i s t hi h
  cases i
  case pwmCfg =>
    obtain rfl | ⟨-, e, -⟩ := execPwmCfg_cases h
    · rfl
    · rw [e]
  case pwmInit => exact (execPwmInit_footprint h).res_eq
  case motor => exact (execMotor_footprint h).res_eq
  case pwmSetch | servoPw | servoCs | servoAng | servoWide =>
    obtain rfl := Host.Outcome.next.inj h
    exact (setChannel_footprint ..).res_eq
  case pixInit => exact (execPixInit_pixelFrame h).res_eq
  case pixSet => exact (execPixSet_footprint h).pixelFrame.res_eq
  case pixFill => exact (execPixFill_footprint h).pixelFrame.res_eq
  case pixSets => exact (execPixSets_footprint h).pixelFrame.res_eq
  case pixRefresh => exact (execPixRefresh_pixelFrame h).res_eq
  case usrMeasure => exact absurd rfl (hi _ _ _ _)
  case mp3Init =>
    obtain rfl | ⟨-, a, b, -, -, rfl⟩ := execMp3Init_cases h <;> rfl
  all_goals
    obtain rfl := Host.Outcome.next.inj h
    exact (sendFrame_footprint ..).res_eq

end Sys2Proof.Machine
end
